-- ==== Sys2Proof/Word.lean ====
section
/-! DEFINITION. The one value domain of the hardware: the 32-bit signed cell. -/

namespace Sys2Proof

/-- `Int32` (rule R9): what every register, flag cell, memory cell, stack cell and
program-buffer element (log 23) holds. It is kept as its 32-bit two's-complement pattern; the signed
value the rules compare and compute with is `BitVec.toInt` (rule R125). -/
abbrev Word := BitVec 32

/-- `2^31 - 1`, the greatest `Int32`, and the upper bound of every capacity and of `LEN` (rule R8). -/
abbrev maxInt32 : Nat := 2147483647

end Sys2Proof
end

