-- ==== Sys2Proof/Machine/Alu.lean ====
section
/-! DEFINITION. The `alu`: the arithmetic operators of the Storage Cell (rules R85, R124, R128). -/

namespace Sys2Proof.Machine

/-- `wrap32(v)`: the exact integer reduced modulo `2^32` to an `Int32` (rule R10; log 12). -/
def wrap32 (v : Int) : Word := BitVec.ofInt 32 v

/-- `alu(ADD, a, b)` (rule R124). -/
def aluAdd (a b : Word) : Word := wrap32 (a.toInt + b.toInt)

/-- `alu(SUB, a, b)` (rule R128; log 13). No instruction reaches it. -/
def aluSub (a b : Word) : Word := wrap32 (a.toInt - b.toInt)

/-- `alu(MUL, a, b)` (rule R128; log 13). No instruction reaches it. -/
def aluMul (a b : Word) : Word := wrap32 (a.toInt * b.toInt)

/-- `alu(DIV, a, b)`: the exact quotient truncated toward zero; no value for a zero divisor
(rule R128; log 13). No instruction reaches it. -/
def aluDiv (a b : Word) : Option Word :=
  if b.toInt = 0 then none else some (wrap32 (a.toInt.tdiv b.toInt))

/-- The operators of the Storage Cell (rule R85). -/
inductive AluOp where
  | add | sub | mul | div
deriving DecidableEq, Repr

/-- `alu(op, a, b)`, with no value where the spec refuses one (rules R85, R128). -/
def alu : AluOp → Word → Word → Option Word
  | .add, a, b => some (aluAdd a b)
  | .sub, a, b => some (aluSub a b)
  | .mul, a, b => some (aluMul a b)
  | .div, a, b => aluDiv a b

end Sys2Proof.Machine
end

