-- ==== Sys2Proof/Machine/Cells.lean ====
section
/-! DEFINITION. Arrays of 32-bit cells as sparse lists in one canonical form: the contents of
the data memory, the data stack and the call stack. -/

namespace Sys2Proof.Machine

/-- The contents of an array of cells: the cells that do not hold `unlistedCell`, by index. The
unit is the whole cell; there is no byte view (rules R37, R39; log 1). -/
abbrev Cells := List (Nat × Word)

/-- What a cell that is not listed reads as.
DESIGN CHOICE (log 3): 0, the default of `MEM_INIT`, `DSTACK_INIT` and `CSTACK_INIT` (rule R35).
`State.construct` takes any other contents as an argument. -/
def unlistedCell : Word := 0#32

/-- The value of cell `a`. -/
def readCell (a : Nat) : Cells → Word
  | [] => unlistedCell
  | (b, v) :: m => if b = a then v else readCell a m

/-- The contents with no entry for cell `a`. -/
def eraseCell (a : Nat) (m : Cells) : Cells :=
  m.filter fun c => c.1 ≠ a

/-- The contents with an entry for cell `a` put in its place; the list is to hold no entry for `a`. -/
def insertCell (a : Nat) (v : Word) : Cells → Cells
  | [] => [(a, v)]
  | (b, w) :: m => if a < b then (a, v) :: (b, w) :: m else (b, w) :: insertCell a v m

/-- The contents after `cell[a] <- v`. Writing what an unlisted cell reads as removes the entry. -/
def writeCell (a : Nat) (v : Word) (m : Cells) : Cells :=
  if v = unlistedCell then eraseCell a m else insertCell a v (eraseCell a m)

/-- The canonical form of the contents of an array of `capacity` cells: indices strictly rising,
inside the array, and no entry equal to what an unlisted cell reads as. -/
abbrev Cells.wf (capacity : Nat) (m : Cells) : Prop :=
  m.Pairwise (fun c d => c.1 < d.1) ∧ ∀ c ∈ m, c.2 ≠ unlistedCell ∧ c.1 < capacity

end Sys2Proof.Machine
end

