-- ==== Sys2Proof/Config.lean ====
section
/-! DEFINITION. The parameters of the hardware (rules R7, R8, R35). -/

namespace Sys2Proof

open Machine (Cells Cells.wf)

/-- The parameters an engine is constructed with, with the document's defaults (rule R7; log 2):
the three capacities in cells, and the contents of the memory and of the two stacks at reset
(rule R35; log 3). -/
structure Config where
  /-- `MEM_SIZE` -/
  memSize : Nat := 65536
  /-- `STACK_SIZE` -/
  stackSize : Nat := 128
  /-- `CALL_STACK_SIZE` -/
  callStackSize : Nat := 64
  /-- `MEM_INIT`, by its cells that are not 0 -/
  memInit : Cells := []
  /-- `DSTACK_INIT`, by its cells that are not 0 -/
  dstackInit : Cells := []
  /-- `CSTACK_INIT`, by its cells that are not 0 -/
  cstackInit : Cells := []
deriving DecidableEq, Repr

/-- The document's defaults (rule R7). -/
def Config.defaults : Config := {}

/-- The bound of rule R8 on a capacity: `1 <= n <= 2^31 - 1`. -/
abbrev CapacityInBounds (n : Nat) : Prop := 1 ≤ n ∧ n ≤ maxInt32

/-- A configuration the model does not refuse (rule R8), with reset contents that are arrays of
the three capacities (rule R35). -/
abbrev Config.Ok (c : Config) : Prop :=
  CapacityInBounds c.memSize ∧ CapacityInBounds c.stackSize ∧ CapacityInBounds c.callStackSize ∧
  Cells.wf c.memSize c.memInit ∧ Cells.wf c.stackSize c.dstackInit ∧
  Cells.wf c.callStackSize c.cstackInit

end Sys2Proof
end

