-- ==== Sys2Proof/Machine/State.lean ====
section
/-! DEFINITION. Every piece of state the spec gives the machine, as plain data, and reset. -/

namespace Sys2Proof.Machine

/-- The index of a general register; 0 to 7 are the letters A to H in order (rule R14; log 26). -/
abbrev RegIndex := Fin 8

/-- The flag bank: four Storage Cells in slot order (rule R20; log 14, log 26). -/
structure FlagBank where
  /-- `flag[0]`, the zero flag (rule R21) -/
  z : Word
  /-- `flag[1]`, the carry flag: reserved, never written (rule R22) -/
  c : Word
  /-- `flag[2]`, the sign flag (rule R21) -/
  s : Word
  /-- `flag[3]`: unused, never written (rule R22) -/
  u : Word
deriving DecidableEq, Repr

/-- The Bounded Linear Memory: `MEM_SIZE` and the cells (rules R24, R38). -/
structure Memory where
  capacity : Nat
  cells : Cells
deriving DecidableEq, Repr

/-- The canonical form of the data memory. -/
abbrev Memory.wf (m : Memory) : Prop := Cells.wf m.capacity m.cells

/-- A Bounded Circular Stack: its capacity, its cells, and the index the next push writes
(rule R48). -/
structure Stack where
  cap : Nat
  cells : Cells
  sp : Nat
deriving DecidableEq, Repr

/-- The canonical form of a stack: its cells, and the pointer inside them (rules R48, R52). -/
abbrev Stack.wf (k : Stack) : Prop := Cells.wf k.cap k.cells ∧ k.sp < k.cap

/-- The two successful ends of a run (rule R32). -/
inductive Halt where
  /-- a `HLT` executed (rule R113) -/
  | hlt
  /-- the program counter reached the end of the buffer (rule R103) -/
  | endOfBuffer
deriving DecidableEq, Repr

/-- The five fault kinds an instruction or a fetch raises, with what each carries (rule R130).
Raising one is a step of the machine: it becomes the run status (rule R137; log 6). -/
inductive FaultKind where
  /-- raised by the fetch of an element that is not an opcode (rule R133) -/
  | illegalOpcode (position : Nat) (value : Word)
  /-- raised by the fetch of a truncated instruction (rule R135) -/
  | unfinishedInstruction (position : Nat)
  /-- raised by an instruction with a register operand below 0 or above 8 (rule R132) -/
  | invalidRegister (id : Word)
  /-- raised by an instruction with a register operand equal to 8 (rule R134) -/
  | registerOutOfRange (id : Word)
  /-- raised by `LDM`, `STV` and `ADM` (rule R131) -/
  | illegalAddress (address : Word) (memorySize : Nat)
deriving DecidableEq, Repr

/-- The run status (rule R32). -/
inductive Status where
  | running
  | halted (h : Halt)
  | faulted (k : FaultKind)
deriving DecidableEq, Repr

/-- The state of the machine (`10_state.md`), and the run's program beside it. -/
structure State where
  /-- `x[0]` to `x[7]` (rule R14) -/
  regs : Vector Word 8
  /-- the flag bank (rule R20) -/
  flags : FlagBank
  /-- the program counter, an index into the program buffer (rule R17; log 15) -/
  pc : Nat
  /-- the data memory (rule R24) -/
  mem : Memory
  /-- the data stack `DS` (rule R25) -/
  ds : Stack
  /-- the call stack `CS`, which no instruction reaches (rule R26; log 16) -/
  cs : Stack
  /-- the output log, oldest value first (rule R31; log 22) -/
  out : List Word
  /-- the run status (rule R32) -/
  status : Status
  /-- `Prog[0..LEN-1]`, the parameter of the run (rule R27; log 5). `LEN` is its length. -/
  prog : List Word
deriving DecidableEq, Repr

/-- Why the machine takes no step: only a `Running` state has a successor (rules R32, R105,
R141). Safe: the step stops where the hardware has no step to take, and the state that says so
was reached by a step (log 6). -/
inductive Fault where
  /-- Raised by `step` when the run has halted, by `HLT` or at the end of the buffer. Safe. -/
  | runHalted (h : Halt)
  /-- Raised by `step` when the run has faulted; it carries the fault. Safe. -/
  | runFaulted (k : FaultKind)
deriving DecidableEq, Repr

/-- Why the model gives no meaning. -/
inductive Refusal where
  /-- The opcode is not modelled, by its mnemonic. No arm answers with it. Safe. -/
  | notModelled (mnemonic : String)
  /-- Answered by `step` in a state whose capacities or program length are out of the bounds of
  rule R8, which a model refuses. Safe (log 17). -/
  | configurationOutOfBounds
deriving DecidableEq, Repr

/-- Engine construction (rules R34 to R36, R153): registers and flags 0, the memories at their
reset contents, `pc` and both stack pointers 0, nothing emitted, running (log 3, log 4). -/
def State.construct (c : Config) (prog : List Word) : State where
  regs := Vector.replicate 8 0#32
  flags := { z := 0#32, c := 0#32, s := 0#32, u := 0#32 }
  pc := 0
  mem := { capacity := c.memSize, cells := c.memInit }
  ds := { cap := c.stackSize, cells := c.dstackInit, sp := 0 }
  cs := { cap := c.callStackSize, cells := c.cstackInit, sp := 0 }
  out := []
  status := .running
  prog := prog

/-- The machine right after reset, with the default parameters and no program loaded (log 5). -/
def State.reset : State := State.construct Config.defaults []

end Sys2Proof.Machine
end

