-- ==== Sys2Proof/Machine/Flags.lean ====
section
/-! DEFINITION. The flag unit (rules R86, R101). -/

namespace Sys2Proof.Machine

/-- `Z` for a result: 1 if it is 0, else 0 (rule R101). -/
def zeroFlag (result : Word) : Word := if result.toInt = 0 then 1#32 else 0#32

/-- `S` for a result: 1 if it is negative as a signed value, else 0 (rules R101, R125). -/
def signFlag (result : Word) : Word := if result.toInt < 0 then 1#32 else 0#32

/-- `flags_update(result)`: `Z` and `S` from the result, `C` and `U` left (rule R101). -/
def flagsUpdate (result : Word) (f : FlagBank) : FlagBank :=
  { f with z := zeroFlag result, s := signFlag result }

/-- `flag[k]`, by slot number (rule R20). -/
def flagCell (k : Fin 4) (f : FlagBank) : Word :=
  match k with
  | 0 => f.z
  | 1 => f.c
  | 2 => f.s
  | 3 => f.u

end Sys2Proof.Machine
end

