-- ==== Sys2Proof/Machine/Ops.lean ====
section
/-! DEFINITION. The named operations of the sub-blocks over the state: registers, data memory,
stacks, output, raising a fault, halting, and the end of an instruction. -/

namespace Sys2Proof.Machine

/-! ### Registers (rule R84) -/

/-- `rf_read(i)`. -/
def readReg (r : RegIndex) (s : State) : Word := s.regs[r]

/-- `rf_write(i, v)`. No register is hardwired (rule R15). -/
def writeReg (r : RegIndex) (v : Word) (s : State) : State :=
  { s with regs := s.regs.set r v }

/-- `rf_add(i, v)`: `x[i] <- alu(ADD, x[i], v)`. -/
def addReg (r : RegIndex) (v : Word) (s : State) : State :=
  writeReg r (aluAdd (readReg r s) v) s

/-! ### Raising a fault, and the ends of a run -/

/-- `raise F(info)`: the fault becomes the run status and nothing else changes (rule R137;
log 11). There is no handler, no saved state and no return (rules R140, R141). -/
def raise (k : FaultKind) (s : State) : State := { s with status := .faulted k }

/-- The end of a run in success: by `HLT` (rule R113) or at the end of the buffer (rule R103). -/
def halt (h : Halt) (s : State) : State := { s with status := .halted h }

/-! ### Data memory (rules R43, R44) -/

/-- The data-memory cell at an address, `mem[a]`. -/
def memCell (a : Nat) (s : State) : Word := readCell a s.mem.cells

/-- `mem[a] <- v`. -/
def storeCell (a : Nat) (v : Word) (s : State) : State :=
  { s with mem := { s.mem with cells := writeCell a v s.mem.cells } }

/-- The bounds check of both primitives: the cell an address names, or the fault, which carries
the operand as given and the capacity (rule R45; log 27). -/
def memIndex (addr : Word) (s : State) : Except FaultKind Nat :=
  if addr.toInt < 0 ∨ (s.mem.capacity : Int) ≤ addr.toInt then
    .error (.illegalAddress addr s.mem.capacity)
  else .ok addr.toInt.toNat

/-- `MemRead(addr, 1)` (rule R43). -/
def memRead (addr : Word) (s : State) : Except FaultKind Word :=
  match memIndex addr s with
  | .error k => .error k
  | .ok a => .ok (memCell a s)

/-- `MemWrite(addr, 1, v)` (rule R44). -/
def memWrite (addr v : Word) (s : State) : Except FaultKind State :=
  match memIndex addr s with
  | .error k => .error k
  | .ok a => .ok (storeCell a v s)

/-! ### Stacks (rules R50, R51) -/

/-- The pointer after a push at `sp`: `t = sp + 1`, reset to 0 if `t >= cap - 1` (rule R50). -/
def pushPointer (cap sp : Nat) : Nat := if cap ≤ sp + 1 + 1 then 0 else sp + 1

/-- The pointer after a pop at `sp`: `sp - 1`, or `cap - 1` if that is below 0 (rule R51). -/
def popPointer (cap sp : Nat) : Nat := if sp = 0 then cap - 1 else sp - 1

/-- `Push(S, v)`: write at the pointer, then advance it. It never fails (rules R49,
R50; log 28). -/
def push (v : Word) (k : Stack) : Stack :=
  { k with cells := writeCell k.sp v k.cells, sp := pushPointer k.cap k.sp }

/-- `Pop(S)`: retreat the pointer, then read there; no cell changes. It never fails (rules R49,
R51). -/
def pop (k : Stack) : Word × Stack :=
  (readCell (popPointer k.cap k.sp) k.cells, { k with sp := popPointer k.cap k.sp })

/-- The data stack after an operation on it; the call stack is never given one (rules R56, R89). -/
def setDataStack (k : Stack) (s : State) : State := { s with ds := k }

/-! ### Output (rule R31) -/

/-- `Emit(v)`. -/
def emit (v : Word) (s : State) : State := { s with out := s.out ++ [v] }

/-! ### The end of an instruction -/

/-- Steps 7 and 8 of the protocol: the program counter moves past the instruction (rule R102) and
the flags follow the result (rule R101). The order of the two cannot be observed (log 21). -/
def complete (width : Nat) (result : Word) (s : State) : State :=
  { s with pc := s.pc + width, flags := flagsUpdate result s.flags }

end Sys2Proof.Machine
end

