-- ==== Sys2Proof/Machine/Operands.lean ====
section
/-! DEFINITION. The operand forms: register validation (rules R69, R72, R97) and address operands
(rules R38, R70). A literal operand is its element (rule R71) and needs no operation. -/

namespace Sys2Proof.Machine

/-- The letter that labels a register; the encoding carries the index only (rule R14; log 26). -/
def registerLetter (r : RegIndex) : String :=
  match r with
  | 0 => "A"
  | 1 => "B"
  | 2 => "C"
  | 3 => "D"
  | 4 => "E"
  | 5 => "F"
  | 6 => "G"
  | 7 => "H"

/-- The `InvalidRegister` check: the value is outside `[0, 8]`, the bound inclusive (rules R72,
R97). -/
abbrev InvalidRegister (r : Word) : Prop := r.toInt < 0 ∨ 8 < r.toInt

/-- Step 4 for an instruction with one register operand: run the rest of it with the register, or
raise what the operand is (rule R97; log 8, log 9). -/
def withReg (r : Word) (s : State) (rest : RegIndex → Host.Outcome State Fault Refusal) :
    Host.Outcome State Fault Refusal :=
  if InvalidRegister r then .next (raise (.invalidRegister r) s)
  else if h : r.toNat < 8 then rest ⟨r.toNat, h⟩
  else .next (raise (.registerOutOfRange r) s)

/-- Step 4 for an instruction with two register operands: every `InvalidRegister` check, first
operand first, comes before any `RegisterOutOfRange` check (rule R97; log 9). -/
def withTwoRegs (r₁ r₂ : Word) (s : State)
    (rest : RegIndex → RegIndex → Host.Outcome State Fault Refusal) :
    Host.Outcome State Fault Refusal :=
  if InvalidRegister r₁ then .next (raise (.invalidRegister r₁) s)
  else if InvalidRegister r₂ then .next (raise (.invalidRegister r₂) s)
  else withReg r₁ s fun a => withReg r₂ s fun b => rest a b

/-- Read the cell an address operand names and run the rest of the instruction with its value, or
raise `IllegalAddress` (rules R43, R117, R123). -/
def withMemRead (addr : Word) (s : State) (rest : Word → Host.Outcome State Fault Refusal) :
    Host.Outcome State Fault Refusal :=
  match memRead addr s with
  | .error k => .next (raise k s)
  | .ok v => rest v

/-- Write the cell an address operand names and run the rest of the instruction in the state after
it, or raise `IllegalAddress` (rules R44, R118). -/
def withMemWrite (addr v : Word) (s : State) (rest : State → Host.Outcome State Fault Refusal) :
    Host.Outcome State Fault Refusal :=
  match memWrite addr v s with
  | .error k => .next (raise k s)
  | .ok t => rest t

end Sys2Proof.Machine
end

