-- ==== Sys2Proof/Machine/Arithmetic.lean ====
section
/-! DEFINITION. `ADM` (`45_arithmetic_adm.md`). -/

namespace Sys2Proof.Machine

/-- `ADM r, addr`: add a memory cell to a register, in place (rule R123). -/
def execAdm (r addr : Word) (s : State) : Host.Outcome State Fault Refusal :=
  withReg r s fun k =>
    withMemRead addr s fun v => .next (complete 3 (readReg k (addReg k v s)) (addReg k v s))

end Sys2Proof.Machine
end

