-- ==== Sys2Proof/Machine/LoadStore.lean ====
section
/-! DEFINITION. `LDM` and `STV` (`43_memory_load_store.md`). -/

namespace Sys2Proof.Machine

/-- `LDM r, addr`: load from memory (rule R117). -/
def execLdm (r addr : Word) (s : State) : Host.Outcome State Fault Refusal :=
  withReg r s fun k => withMemRead addr s fun v => .next (complete 3 v (writeReg k v s))

/-- `STV r, addr`: store to memory; the flags come from the result 0 (rule R118). -/
def execStv (r addr : Word) (s : State) : Host.Outcome State Fault Refusal :=
  withReg r s fun k => withMemWrite addr (readReg k s) s fun t => .next (complete 3 0#32 t)

end Sys2Proof.Machine
end

