-- ==== Sys2Proof/Machine/Move.lean ====
section
/-! DEFINITION. `MOV` and `LDI` (`42_move_and_immediate.md`). -/

namespace Sys2Proof.Machine

/-- `MOV rs, rd`: copy a register, the source first (rules R68, R114). -/
def execMov (rs rd : Word) (s : State) : Host.Outcome State Fault Refusal :=
  withTwoRegs rs rd s fun a b => .next (complete 3 (readReg a s) (writeReg b (readReg a s) s))

/-- `LDI r, literal`: load an immediate (rule R115). -/
def execLdi (r literal : Word) (s : State) : Host.Outcome State Fault Refusal :=
  withReg r s fun k => .next (complete 3 literal (writeReg k literal s))

end Sys2Proof.Machine
end

