-- ==== Sys2Proof/Machine/PushPop.lean ====
section
/-! DEFINITION. `POP` and `PSH` (`44_stack_push_pop.md`). -/

namespace Sys2Proof.Machine

/-- `POP r`: pop the data stack into a register (rule R120). -/
def execPop (r : Word) (s : State) : Host.Outcome State Fault Refusal :=
  withReg r s fun k =>
    .next (complete 2 (pop s.ds).1 (writeReg k (pop s.ds).1 (setDataStack (pop s.ds).2 s)))

/-- `PSH r`: push a register on the data stack (rule R121). -/
def execPsh (r : Word) (s : State) : Host.Outcome State Fault Refusal :=
  withReg r s fun k =>
    .next (complete 2 (readReg k s) (setDataStack (push (readReg k s) s.ds) s))

end Sys2Proof.Machine
end

