-- ==== Sys2Proof/Machine/System.lean ====
section
/-! DEFINITION. `OUT` and `HLT` (`41_system_out_hlt.md`). -/

namespace Sys2Proof.Machine

/-- `OUT r`: emit a register (rule R112). -/
def execOut (r : Word) (s : State) : Host.Outcome State Fault Refusal :=
  withReg r s fun k => .next (complete 2 (readReg k s) (emit (readReg k s) s))

/-- `HLT`: the run halts; no result, no flags, the program counter stays (rules R108, R113;
log 10). -/
def execHlt (s : State) : Host.Outcome State Fault Refusal := .next (halt .hlt s)

end Sys2Proof.Machine
end

