-- ==== Sys2Proof/Syntax.lean ====
section
/-! DEFINITION. The instruction set as syntax: opcodes, operand roles, formats, and the nine
instructions with their operands (rules R65, R66, R75). -/

namespace Sys2Proof

/-- The nine mnemonics of the closed instruction set (rule R66). -/
inductive Opcode where
  | out | hlt | mov | ldm | ldi | stv | pop | psh | adm
deriving DecidableEq, Repr

/-- What an operand element stands for (rules R69 to R71, R75). -/
inductive Role where
  /-- a register index -/
  | reg
  /-- a data-memory address -/
  | addr
  /-- a literal value -/
  | lit
deriving DecidableEq, Repr

/-- The five formats (rule R65). -/
inductive Format where
  | z | r | rr | ra | ri
deriving DecidableEq, Repr

/-- The operand elements of a format, in buffer order (rule R65). -/
def Format.roles : Format → List Role
  | .z => []
  | .r => [.reg]
  | .rr => [.reg, .reg]
  | .ra => [.reg, .addr]
  | .ri => [.reg, .lit]

/-- The format of each opcode (rule R66). -/
def Opcode.format : Opcode → Format
  | .out => .r
  | .hlt => .z
  | .mov => .rr
  | .ldm => .ra
  | .ldi => .ri
  | .stv => .ra
  | .pop => .r
  | .psh => .r
  | .adm => .ra

/-- `n`, the operand count of an opcode (rules R66, R75). -/
def Opcode.operandCount (o : Opcode) : Nat := o.format.roles.length

/-- The total width of an instruction in elements, `1 + n` (rules R64, R75). -/
def Opcode.width (o : Opcode) : Nat := 1 + o.operandCount

/-- The name the table gives the opcode (rules R66, R77). -/
def Opcode.mnemonic : Opcode → String
  | .out => "OUT"
  | .hlt => "HLT"
  | .mov => "MOV"
  | .ldm => "LDM"
  | .ldi => "LDI"
  | .stv => "STV"
  | .pop => "POP"
  | .psh => "PSH"
  | .adm => "ADM"

/-- An instruction with its operand elements taken whole from the buffer, in buffer order (rules
R66, R68, R96). A register operand is the raw element: whether it names a register is checked
when the instruction runs (rule R97; log 20). -/
inductive Instr where
  /-- `OUT r` (rule R112) -/
  | out (r : Word)
  /-- `HLT` (rule R113) -/
  | hlt
  /-- `MOV rs, rd`: source first, then destination (rules R68, R114) -/
  | mov (rs rd : Word)
  /-- `LDM r, addr` (rule R117) -/
  | ldm (r addr : Word)
  /-- `LDI r, literal` (rule R115) -/
  | ldi (r literal : Word)
  /-- `STV r, addr` (rule R118) -/
  | stv (r addr : Word)
  /-- `POP r` (rule R120) -/
  | pop (r : Word)
  /-- `PSH r` (rule R121) -/
  | psh (r : Word)
  /-- `ADM r, addr` (rule R123) -/
  | adm (r addr : Word)
deriving DecidableEq, Repr

/-- The opcode of an instruction. -/
def Instr.opcode : Instr → Opcode
  | .out _ => .out
  | .hlt => .hlt
  | .mov _ _ => .mov
  | .ldm _ _ => .ldm
  | .ldi _ _ => .ldi
  | .stv _ _ => .stv
  | .pop _ => .pop
  | .psh _ => .psh
  | .adm _ _ => .adm

/-- The operand elements of an instruction, in buffer order (rule R78). -/
def Instr.operands : Instr → List Word
  | .out r => [r]
  | .hlt => []
  | .mov rs rd => [rs, rd]
  | .ldm r addr => [r, addr]
  | .ldi r literal => [r, literal]
  | .stv r addr => [r, addr]
  | .pop r => [r]
  | .psh r => [r]
  | .adm r addr => [r, addr]

/-- The operands of one role, in buffer order. -/
def Instr.operandsOf (role : Role) (i : Instr) : List Word :=
  ((i.opcode.format.roles.zip i.operands).filter fun p => p.1 = role).map Prod.snd

/-- The register operands of an instruction, in buffer order (rule R97). -/
def Instr.registerOperands (i : Instr) : List Word := i.operandsOf .reg

/-- The address operands of an instruction (rule R70). -/
def Instr.addressOperands (i : Instr) : List Word := i.operandsOf .addr

end Sys2Proof
end

