-- ==== Sys2Proof/Machine/Dispatch.lean ====
section
/-! DEFINITION. One arm per instruction: steps 4 to 8 of the protocol (rules R97 to R102, R105). -/

namespace Sys2Proof.Machine

def exec (i : Instr) (s : State) : Host.Outcome State Fault Refusal :=
  match i with
  | .out r => Sys2Proof.Machine.execOut r s
  | .hlt => Sys2Proof.Machine.execHlt s
  | .mov rs rd => Sys2Proof.Machine.execMov rs rd s
  | .ldm r addr => Sys2Proof.Machine.execLdm r addr s
  | .ldi r literal => Sys2Proof.Machine.execLdi r literal s
  | .stv r addr => Sys2Proof.Machine.execStv r addr s
  | .pop r => Sys2Proof.Machine.execPop r s
  | .psh r => Sys2Proof.Machine.execPsh r s
  | .adm r addr => Sys2Proof.Machine.execAdm r addr s

end Sys2Proof.Machine
end

