-- ==== Sys2Proof/WellFormed.lean ====
section
/-! DEFINITION. What a loader owes an instruction (rule R157): registers that exist and addresses
inside the memory. -/

namespace Sys2Proof

/-- A register operand names a register: its value is 0 to 7 (rules R69, R72). -/
abbrev NamesRegister (r : Word) : Prop := 0 ≤ r.toInt ∧ r.toInt ≤ 7

/-- An address operand is legal in a memory of `memSize` cells (rules R38, R45). -/
abbrev NamesCell (memSize : Nat) (addr : Word) : Prop := 0 ≤ addr.toInt ∧ addr.toInt < memSize

/-- Every register operand of the instruction is in 0 to 7 (rule R157). -/
abbrev Instr.WellFormed (i : Instr) : Prop :=
  i.registerOperands.all (fun r => NamesRegister r) = true

/-- Every address operand of the instruction is in `[0, memSize)` (rule R157). -/
abbrev Instr.AddressesIn (memSize : Nat) (i : Instr) : Prop :=
  i.addressOperands.all (fun a => NamesCell memSize a) = true

end Sys2Proof
end

