-- ==== Sys2Proof/Decode.lean ====
section
/-! DEFINITION. The instruction decoder (rules R63 to R68, R73, R75, R93 to R96) and the encoder
(rule R78). -/

namespace Sys2Proof

/-- Why the elements from `pc` on hold no instruction. -/
inductive DecodeError where
  /-- There is no element at `pc`: nothing is fetched (rules R93, R103). -/
  | endOfBuffer
  /-- The element at `pc` is not an opcode (rules R73, R94). -/
  | illegalOpcode (value : Word)
  /-- Fewer elements follow the opcode than it has operands (rule R95). -/
  | unfinishedInstruction
deriving DecidableEq, Repr

/-- The opcode values of the table (rule R66). -/
def Opcode.value : Opcode → Word
  | .out => 0#32
  | .hlt => 1#32
  | .mov => 2#32
  | .ldm => 3#32
  | .ldi => 4#32
  | .stv => 5#32
  | .pop => 6#32
  | .psh => 7#32
  | .adm => 8#32

/-- The rows of the opcode table (rule R66). -/
def opcodeTable : List Opcode := [.out, .hlt, .mov, .ldm, .ldi, .stv, .pop, .psh, .adm]

/-- `Decode(op)` of rule R75: an element is an opcode exactly when its whole value equals the
opcode's (rule R67). -/
def decodeOpcode (op : Word) : Option Opcode :=
  opcodeTable.find? fun o => o.value = op

/-- Steps 2 and 3 for an instruction of one operand (rules R95, R96). -/
def takeOne (mk : Word → Instr) : List Word → Except DecodeError (Instr × List Word)
  | a :: rest => .ok (mk a, rest)
  | [] => .error .unfinishedInstruction

/-- Steps 2 and 3 for an instruction of two operands (rules R95, R96). -/
def takeTwo (mk : Word → Word → Instr) : List Word → Except DecodeError (Instr × List Word)
  | a :: b :: rest => .ok (mk a b, rest)
  | [_] => .error .unfinishedInstruction
  | [] => .error .unfinishedInstruction

/-- Steps 2 and 3 of the protocol: count and extract the operands of a recognised opcode (rules
R95, R96), in buffer order (rule R68). -/
def takeOperands : Opcode → List Word → Except DecodeError (Instr × List Word)
  | .out, rest => takeOne .out rest
  | .hlt, rest => .ok (.hlt, rest)
  | .mov, rest => takeTwo .mov rest
  | .ldm, rest => takeTwo .ldm rest
  | .ldi, rest => takeTwo .ldi rest
  | .stv, rest => takeTwo .stv rest
  | .pop, rest => takeOne .pop rest
  | .psh, rest => takeOne .psh rest
  | .adm, rest => takeTwo .adm rest

/-- Decode the instruction that starts the list, and the elements after it. The opcode is
recognised before the operands are counted (rules R94, R95). -/
def decode : List Word → Except DecodeError (Instr × List Word)
  | [] => .error .endOfBuffer
  | op :: rest =>
    match decodeOpcode op with
    | none => .error (.illegalOpcode op)
    | some o => takeOperands o rest

/-- The elements of an instruction: its opcode, then its operands in order (rule R78). -/
def encode (i : Instr) : List Word := i.opcode.value :: i.operands

/-- The elements of a program: the concatenation of its instructions' (rule R78). -/
def encodeProgram (is : List Instr) : List Word := is.flatMap encode

/-- The three elements (the longest instruction, rule R64) whose bits, numbered from the first
element's least significant bit, are the low `nbits` bits of `w` with zeros above (log 25). -/
def tableElements (nbits w : Nat) : List Word :=
  [BitVec.ofNat 32 (w % 2 ^ nbits), BitVec.ofNat 32 (w % 2 ^ nbits / 2 ^ 32),
    BitVec.ofNat 32 (w % 2 ^ nbits / 2 ^ 64)]

/-- The instruction the decoder reads from a word numbered as the opcode table numbers it. -/
def decodeTableWord (nbits w : Nat) : Option Instr :=
  match decode (tableElements nbits w) with
  | .ok (i, _) => some i
  | .error _ => none

end Sys2Proof
end

