-- ==== Sys2Proof/Machine/Fetch.lean ====
section
/-! DEFINITION. Fetch (rules R47, R93 to R96, R103): the elements from the program counter on,
and what a fetch that finds no instruction does. -/

namespace Sys2Proof.Machine

/-- The parameters of the run are within the bounds of rule R8. -/
abbrev State.Configured (s : State) : Prop :=
  CapacityInBounds s.mem.capacity ∧ CapacityInBounds s.ds.cap ∧ CapacityInBounds s.cs.cap ∧
  s.prog.length ≤ maxInt32

/-- The elements of the program buffer from `pc` to its end. -/
def fetchElements (s : State) : List Word := s.prog.drop s.pc

/-- Steps 1 to 3 of the protocol (rules R93 to R96). -/
def fetch (s : State) : Except DecodeError (Instr × List Word) := decode (fetchElements s)

/-- The state after a fetch that found no instruction: the implicit halt at the end of the buffer
(rule R103; log 18), `IllegalOpcode` (rule R94; log 7) or `UnfinishedInstruction` (rule R95). -/
def fetchFailed (e : DecodeError) (s : State) : State :=
  match e with
  | .endOfBuffer => halt .endOfBuffer s
  | .illegalOpcode value => raise (.illegalOpcode s.pc value) s
  | .unfinishedInstruction => raise (.unfinishedInstruction s.pc) s

/-- A program buffer with the given elements standing from index `start` on; a buffer that ends
before `start` is filled up with zeros (log 25). -/
def spliceElements (start : Nat) (es prog : List Word) : List Word :=
  (prog ++ List.replicate (start - prog.length) 0#32).take start ++ es ++
    prog.drop (start + es.length)

end Sys2Proof.Machine
end

