-- ==== Sys2Proof/Machine/Step.lean ====
section
/-! DEFINITION. The step function (rule R105), and the placing of an instruction for the host. -/

namespace Sys2Proof.Machine

/-- `Step` (rule R105): one iteration of the engine's loop, one transition (rule R106). Only a
`Running` state has a successor (rule R32; log 6); a configuration out of bounds is refused
(rule R8; log 17). -/
def step (s : State) : Host.Outcome State Fault Refusal :=
  if s.Configured then
    match s.status with
    | .halted h => .fault (.runHalted h)
    | .faulted k => .fault (.runFaulted k)
    | .running =>
      match fetch s with
      | .ok (i, _) => exec i s
      | .error e => .next (fetchFailed e s)
  else .refused .configurationOutOfBounds

/-- `s` with a table word standing where `step` fetches next, in a run that is not over (log 5,
log 25). -/
def State.withFetchWord (s : State) (nbits w : Nat) : State :=
  { s with prog := spliceElements s.pc (tableElements nbits w) s.prog, status := .running }

end Sys2Proof.Machine
end

