-- ==== Sys2Proof/Machine/Run.lean ====
section
/-! DEFINITION. The engine's entry point `run` (rules R103, R104). -/

namespace Sys2Proof.Machine

/-- `while status = Running: Step`, for at most the given number of steps. A state that has no
next state is the end. -/
def runLoop : Nat → State → State
  | 0, s => s
  | n + 1, s =>
    match step s with
    | .next t => runLoop n t
    | .fault _ => s
    | .refused _ => s

/-- What `run` reports (rule R104). -/
inductive RunResult where
  /-- either halt -/
  | success
  /-- a fault kind with its information -/
  | fault (k : FaultKind)
deriving DecidableEq, Repr

/-- The report of a run that is over; none of one that is not (rules R32, R104). -/
def runResult (s : State) : Option RunResult :=
  match s.status with
  | .running => none
  | .halted _ => some .success
  | .faulted k => some (.fault k)

/-- The number of steps no run exceeds (rules R103, R160). -/
def stepBound (len : Nat) : Nat := len / 2 + 1

/-- `run(Prog, LEN)`: from the reset state to the end; the report and the final state, which stays
readable (rules R104, R155; log 19). None for a configuration the model refuses (rule R8). -/
def run (c : Config) (prog : List Word) : Option (RunResult × State) :=
  let t := runLoop (stepBound prog.length) (State.construct c prog)
  (runResult t).map fun r => (r, t)

end Sys2Proof.Machine
end

