-- ==== Sys2Proof/Safety.lean ====
section
/-! DEFINITION. The terms the claims use: the invariant of every run, what an instruction keeps,
how an instruction advances, which faults it may raise, and the programs a loader owes. -/

namespace Sys2Proof.Machine

/-! ### The invariant -/

/-- Every flag cell holds 0 or 1, `Z` and `S` are never both 1 (rules R21, R101), and the two cells
no instruction writes hold their reset value (rule R22). -/
def FlagBank.Inv (f : FlagBank) : Prop :=
  (f.z = 0#32 ∨ f.z = 1#32) ∧ (f.s = 0#32 ∨ f.s = 1#32) ∧ ¬ (f.z = 1#32 ∧ f.s = 1#32) ∧
  f.c = 0#32 ∧ f.u = 0#32

/-- The end of a run is where and what the run status says it is (rules R103, R113, R130). -/
def State.StatusInv (s : State) : Prop :=
  match s.status with
  | .running => True
  | .halted .hlt => s.prog[s.pc]? = some 1#32
  | .halted .endOfBuffer => s.pc = s.prog.length
  | .faulted (.illegalOpcode position value) =>
    position = s.pc ∧ s.prog[s.pc]? = some value ∧ (value.toInt < 0 ∨ 8 < value.toInt)
  | .faulted (.unfinishedInstruction position) =>
    position = s.pc ∧ s.pc < s.prog.length ∧ s.prog.length ≤ s.pc + 2
  | .faulted (.invalidRegister id) => id.toInt < 0 ∨ 8 < id.toInt
  | .faulted (.registerOutOfRange id) => id = 8#32
  | .faulted (.illegalAddress address memorySize) =>
    memorySize = s.mem.capacity ∧ (address.toInt < 0 ∨ (memorySize : Int) ≤ address.toInt)

/-- The invariant of every run: the parameters are in bounds, the memory and both stacks are in
canonical form with their pointers inside them (rule R52), the program counter is in `[0, LEN]`
(rule R17), and the flags and the status are as their own invariants say. -/
def State.Inv (s : State) : Prop :=
  s.Configured ∧ s.mem.wf ∧ s.ds.wf ∧ s.cs.wf ∧ s.pc ≤ s.prog.length ∧ s.flags.Inv ∧ s.StatusInv

/-! ### Frames -/

/-- The operand's value is the register's index (rule R69). -/
abbrev Names (r : Word) (k : RegIndex) : Prop := r.toInt = (k.val : Int)

/-- Every register reads as before. -/
def KeepsRegs (s t : State) : Prop := ∀ r : RegIndex, readReg r t = readReg r s

/-- Every register but `k` reads as before. -/
def KeepsRegsBut (k : RegIndex) (s t : State) : Prop :=
  ∀ r : RegIndex, r ≠ k → readReg r t = readReg r s

/-- The data memory has its size, and every cell reads as before. -/
def KeepsMem (s t : State) : Prop :=
  t.mem.capacity = s.mem.capacity ∧ ∀ a : Nat, memCell a t = memCell a s

/-- The data memory has its size, and every cell but the one at `a` reads as before. -/
def KeepsMemBut (a : Nat) (s t : State) : Prop :=
  t.mem.capacity = s.mem.capacity ∧ ∀ b : Nat, b ≠ a → memCell b t = memCell b s

/-- `Z` and `S` are those of the result, `C` and `U` as before (rule R101). -/
def FlagsFrom (result : Word) (s t : State) : Prop :=
  t.flags.z = (if result.toInt = 0 then 1#32 else 0#32) ∧
  t.flags.s = (if result.toInt < 0 then 1#32 else 0#32) ∧
  t.flags.c = s.flags.c ∧ t.flags.u = s.flags.u

/-- How every instruction but `HLT` ends: the program counter has moved by the width, the flags are
those of the result, and the run status, the call stack and the program are as before. -/
def Advances (width : Nat) (result : Word) (s t : State) : Prop :=
  t.pc = s.pc + width ∧ FlagsFrom result s t ∧ t.status = s.status ∧ t.cs = s.cs ∧ t.prog = s.prog

/-! ### Results and faults -/

/-- The "last operation value" of an instruction that went from `s` to `t`, row by row of the table
of rule R100: the new contents of the destination register (and what they equal, but for `ADM`,
whose sum is `Obligations.AdmAddsTheCell`), the value emitted or pushed, 0 for a store, none for
`HLT`. -/
def Reports (i : Instr) (s t : State) (result : Word) : Prop :=
  match i with
  | .out r => ∃ k, Names r k ∧ result = readReg k s
  | .hlt => False
  | .mov rs rd => ∃ a b, Names rs a ∧ Names rd b ∧ result = readReg b t ∧ result = readReg a s
  | .ldm r addr => ∃ k, Names r k ∧ result = readReg k t ∧ result = memCell addr.toInt.toNat s
  | .ldi r literal => ∃ k, Names r k ∧ result = readReg k t ∧ result = literal
  | .stv _ _ => result = 0#32
  | .pop r => ∃ k, Names r k ∧ result = readReg k t ∧ result = (pop s.ds).1
  | .psh r => ∃ k, Names r k ∧ result = readReg k s
  | .adm r _ => ∃ k, Names r k ∧ result = readReg k t

/-- The faults an executing instruction may raise and the operand each carries (rule R143). -/
def MayRaise (i : Instr) (memSize : Nat) (k : FaultKind) : Prop :=
  match k with
  | .illegalOpcode _ _ => False
  | .unfinishedInstruction _ => False
  | .invalidRegister id => id ∈ i.registerOperands ∧ (id.toInt < 0 ∨ 8 < id.toInt)
  | .registerOutOfRange id => id ∈ i.registerOperands ∧ id = 8#32
  | .illegalAddress address m =>
    address ∈ i.addressOperands ∧ m = memSize ∧ (address.toInt < 0 ∨ (m : Int) ≤ address.toInt)

/-- Running the instruction ends the run with the fault and changes nothing else (rule R137). -/
def Raises (k : FaultKind) (i : Instr) (s : State) : Prop :=
  exec i s = .next { s with status := .faulted k }

/-! ### Several operations in a row -/

/-- The stack after pushing the values in order. -/
def pushAll : List Word → Stack → Stack
  | [], k => k
  | v :: vs, k => pushAll vs (push v k)

/-- The values of `n` pops in the order they come, and the stack after them. -/
def popMany : Nat → Stack → List Word × Stack
  | 0, k => ([], k)
  | n + 1, k => ((pop k).1 :: (popMany n (pop k).2).1, (popMany n (pop k).2).2)

/-! ### Programs that meet the loader's duty -/

/-- Every instruction names registers that exist and cells inside the memory (rule R157). -/
def Loadable (memSize : Nat) (is : List Instr) : Prop :=
  ∀ i ∈ is, i.WellFormed ∧ i.AddressesIn memSize

/-- The buffer is the instructions' elements and then a tail, and along the path executed, up to the
first `HLT` or the end, it meets the loader's duty (rule R157): the instructions are loadable, and
whatever follows them stands behind a `HLT` (rule R76). -/
def MeetsLoadersDuty (memSize : Nat) (prog : List Word) (is : List Instr) (tail : List Word) :
    Prop :=
  prog = encodeProgram is ++ tail ∧ Loadable memSize is ∧ (.hlt ∈ is ∨ tail = [])

/-- The report says how the run ended: `success` exactly for a halt, and a fault kind with its
information exactly for that fault (rule R104). -/
def ReportsTheEnd (r : RunResult) (t : State) : Prop :=
  (r = .success ↔ ∃ h, t.status = .halted h) ∧ ∀ k, r = .fault k ↔ t.status = .faulted k

end Sys2Proof.Machine
end

