-- ==== Sys2Proof/Certificates/Slice0/Obligations.lean ====
section
/-! DEFINITION. The statements for the provers. Each docstring says which rule or section of
spec/ the statement formalises. -/

open Sys2Proof Sys2Proof.Machine

/-! ### Encoding and decoding -/

/-- The decoder reads exactly the encodings: a list of elements decodes to an instruction and a
rest if and only if it is that instruction's elements followed by that rest
(`30_encoding.md` sections 1, 5 and 6). -/
def Obligations.DecodeExactlyInvertsEncode : Prop :=
  ∀ (ws : List Word) (i : Instr) (rest : List Word),
    decode ws = .ok (i, rest) ↔ ws = encode i ++ rest

/-- One word sequence of each row, written out from the table of `30_encoding.md` section 2. -/
def Obligations.TableWordsDecode : Prop :=
  decode [0#32, 7#32] = .ok (.out 7#32, []) ∧
  decode [1#32] = .ok (.hlt, []) ∧
  decode [2#32, 0#32, 1#32] = .ok (.mov 0#32 1#32, []) ∧
  decode [3#32, 2#32, 65535#32] = .ok (.ldm 2#32 65535#32, []) ∧
  decode [4#32, 0#32, 0x123#32] = .ok (.ldi 0#32 291#32, []) ∧
  decode [5#32, 1#32, 0#32] = .ok (.stv 1#32 0#32, []) ∧
  decode [6#32, 4#32] = .ok (.pop 4#32, []) ∧
  decode [7#32, 3#32, 1#32] = .ok (.psh 3#32, [1#32]) ∧
  decode [8#32, 0#32, 10#32] = .ok (.adm 0#32 10#32, [])

/-- An element where an opcode is expected is no opcode exactly when its signed value is below 0
or above 8, whatever follows it (`30_encoding.md` section 2, matching on all 32 bits, and
section 4). -/
def Obligations.OpcodeElementsAreZeroToEight : Prop :=
  ∀ (op : Word) (rest : List Word),
    decode (op :: rest) = .error (.illegalOpcode op) ↔ op.toInt < 0 ∨ 8 < op.toInt

/-! ### The step -/

/-- A running machine whose buffer holds an instruction's elements at the program counter runs
that instruction (`40_engine_and_blocks.md` section 3). -/
def Obligations.StepRunsTheDecodedInstruction : Prop :=
  ∀ (s : State) (i : Instr) (rest : List Word),
    s.Configured → s.status = .running → s.prog.drop s.pc = encode i ++ rest → step s = exec i s

/-- The host's placing of a table word: the very next step runs the instruction the decoder reads
from that word. This is the model's own interface (log 25), no rule of the spec. -/
def Obligations.PlacedWordRunsNext : Prop :=
  ∀ (s : State) (nbits w : Nat) (i : Instr),
    decodeTableWord nbits w = some i → (s.withFetchWord nbits w).Configured →
      step (s.withFetchWord nbits w) = exec i (s.withFetchWord nbits w)

/-- The loop test: at or past the end of the buffer a running machine halts with `Halted(END)`,
fetches nothing and changes nothing else (`40_engine_and_blocks.md` section 2, step 9; the empty
program is the spec's decision D10, log 18). -/
def Obligations.StepHaltsAtTheEndOfTheBuffer : Prop :=
  ∀ s : State, s.Configured → s.status = .running → s.prog.length ≤ s.pc →
    step s = .next { s with status := .halted .endOfBuffer }

/-- An element that is no opcode ends the run with `IllegalOpcode(pc, op)` and changes nothing else
(`40_engine_and_blocks.md` section 2, step 1; the fault is the spec's decision D2, log 7, and that
nothing else changes is D12, log 11). -/
def Obligations.UnrecognisedOpcodeFaults : Prop :=
  ∀ (s : State) (op : Word), s.Configured → s.status = .running → s.prog[s.pc]? = some op →
    (op.toInt < 0 ∨ 8 < op.toInt) →
      step s = .next { s with status := .faulted (.illegalOpcode s.pc op) }

/-- The operand-length check (rule R95): with `n` the operand count of the opcode at `pc`, the
machine raises `UnfinishedInstruction(pc)` exactly when `pc + n >= LEN`, whatever the elements
that are present hold; the elements after the opcode number `LEN - pc - 1`, and for `HLT` the
check always passes. -/
def Obligations.TruncatedInstructionIsUnfinished : Prop :=
  ∀ (s : State) (op : Word) (n : Nat), s.Configured → s.status = .running →
    s.prog[s.pc]? = some op →
    ((op = 1#32 ∧ n = 0) ∨ (op ∈ [0#32, 6#32, 7#32] ∧ n = 1) ∨
      (op ∈ [2#32, 3#32, 4#32, 5#32, 8#32] ∧ n = 2)) →
    ((s.prog.length : Int) - s.pc - 1 < n ↔ s.prog.length ≤ s.pc + n) ∧
    (s.prog.length ≤ s.pc + n ↔
      ∃ t, step s = .next t ∧ t.status = .faulted (.unfinishedInstruction s.pc)) ∧
    (op = 1#32 → ¬ s.prog.length ≤ s.pc + n)

/-- A configured machine has a next state exactly when it is running; a run that is over has none
(`10_state.md` section 6, run status; `40_engine_and_blocks.md` section 3, the step is total on
running states; that a raised fault is a next state and a run that is over has none is log 6). -/
def Obligations.OnlyRunningStatesHaveASuccessor : Prop :=
  ∀ s : State, s.Configured → ((∃ t, step s = .next t) ↔ s.status = .running)

/-- A faulted run has no successor state, and no number of steps clears its status (rule R141). -/
def Obligations.FaultedRunIsTerminal : Prop :=
  ∀ (s : State) (k : FaultKind), s.status = .faulted k →
    (∀ t, step s ≠ .next t) ∧ ∀ n, (runLoop n s).status = .faulted k

/-- The model refuses a step exactly when a capacity or the program length is out of its bounds
(`00_scope.md` section 3; the bounds are the spec's decision D15, log 17). -/
def Obligations.StepRefusesExactlyConfigurationsOutOfBounds : Prop :=
  ∀ s : State, (∃ r, step s = .refused r) ↔
    ¬ (1 ≤ s.mem.capacity ∧ s.mem.capacity ≤ 2 ^ 31 - 1 ∧ 1 ≤ s.ds.cap ∧ s.ds.cap ≤ 2 ^ 31 - 1 ∧
      1 ≤ s.cs.cap ∧ s.cs.cap ≤ 2 ^ 31 - 1 ∧ s.prog.length ≤ 2 ^ 31 - 1)

/-! ### Reset -/

/-- Engine construction sets every register and every flag cell to 0 (rule R34), for every
configuration and program; `State.reset` is one of them. -/
def Obligations.ResetClearsRegistersAndFlags : Prop :=
  (∀ (c : Config) (prog : List Word) (r : RegIndex) (k : Fin 4),
    readReg r (State.construct c prog) = 0#32 ∧ flagCell k (State.construct c prog).flags = 0#32) ∧
  ∀ (r : RegIndex) (k : Fin 4),
    readReg r State.reset = 0#32 ∧ flagCell k State.reset.flags = 0#32

/-- The rest of reset: `pc` and both stack pointers 0, nothing emitted, running, the memories at
their reset contents and sizes. These are the spec's decisions D6 to D9 (log 3, log 4); the default
sizes and the all-zero contents of `State.reset` are the model's choice among them (log 2, log 3),
and so is the empty program (log 5). -/
def Obligations.ResetLeavesTheRestAsDecided : Prop :=
  (∀ (c : Config) (prog : List Word),
    (State.construct c prog).pc = 0 ∧ (State.construct c prog).ds.sp = 0 ∧
    (State.construct c prog).cs.sp = 0 ∧ (State.construct c prog).out = [] ∧
    (State.construct c prog).status = .running ∧ (State.construct c prog).prog = prog ∧
    (State.construct c prog).mem.capacity = c.memSize ∧
    (State.construct c prog).ds.cap = c.stackSize ∧
    (State.construct c prog).cs.cap = c.callStackSize ∧
    ∀ a, memCell a (State.construct c prog) = readCell a c.memInit ∧
      readCell a (State.construct c prog).ds.cells = readCell a c.dstackInit ∧
      readCell a (State.construct c prog).cs.cells = readCell a c.cstackInit) ∧
  State.reset.mem.capacity = 65536 ∧ State.reset.ds.cap = 128 ∧ State.reset.cs.cap = 64 ∧
  State.reset.prog = [] ∧
  ∀ a, memCell a State.reset = 0#32 ∧ readCell a State.reset.ds.cells = 0#32 ∧
    readCell a State.reset.cs.cells = 0#32

/-! ### The invariant of every run -/

/-- The invariant holds at reset, for the default parameters and for every configuration and
program the model does not refuse (`10_state.md` section 7). The reset values of `pc` and the stack
pointers, the default sizes and contents and the bounds are choices (D6 to D9, D15; log 2, log 3,
log 4, log 17). -/
def Obligations.ResetMeetsTheRunInvariant : Prop :=
  State.reset.Inv ∧
  ∀ (c : Config) (prog : List Word), c.Ok → prog.length ≤ maxInt32 → (State.construct c prog).Inv

/-- Every step keeps the invariant: bounds, canonical memory and stacks, stack pointers inside
their stacks, `pc` in `[0, LEN]`, flag cells 0 or 1 and never both `Z` and `S`, `C` and `U` 0, and
a run status that says truly where and why the run ended (`10_state.md` sections 3, 4 and 6;
`20_memory.md` section 5; `60_exceptions.md` sections 1 and 2). Its clauses rest on these choices:
the canonical form (log 1), the bounds (D15, log 17), `IllegalOpcode` (D2, log 7), index 8 as
`RegisterOutOfRange` (D3, log 8), negative operands (D4, log 9), `pc` kept by `HLT` (D11, log 10)
and by a fault (D12, log 11), the loop test before every fetch (D10, log 18), and what
`IllegalAddress` carries (D28, log 27). -/
def Obligations.EveryStepKeepsTheRunInvariant : Prop :=
  ∀ s t : State, s.Inv → step s = .next t → t.Inv

/-! ### Whole-machine rules -/

/-- `C` and `U` are never written after reset, so both read 0 for the whole of every run
(`10_state.md` section 4, the two reserved flag cells; the second half is the spec's own
inference). -/
def Obligations.CarryAndUnusedFlagsAreNeverWritten : Prop :=
  (∀ s t : State, step s = .next t → t.flags.c = s.flags.c ∧ t.flags.u = s.flags.u) ∧
  ∀ (c : Config) (prog : List Word) (n : Nat),
    (runLoop n (State.construct c prog)).flags.c = 0#32 ∧
    (runLoop n (State.construct c prog)).flags.u = 0#32

/-- No step changes the call stack, the program or the three capacities (`10_state.md` section 5,
call stack and program buffer; `20_memory.md` sections 1 and 6). That the state holds the call
stack and the program is log 16 and log 5, and that it holds the capacities is log 2. -/
def Obligations.CallStackAndProgramAreInert : Prop :=
  ∀ s t : State, step s = .next t →
    t.cs = s.cs ∧ t.prog = s.prog ∧ t.mem.capacity = s.mem.capacity ∧ t.ds.cap = s.ds.cap

/-- The program counter: an instruction that completes advances it by its own width, opcode and
operands; `HLT`, a faulting instruction and the end of the buffer leave it; nothing else ever sets
it (`10_state.md` section 3; that `HLT` and a fault leave it are the spec's decisions D11 and D12,
log 10 and log 11). -/
def Obligations.ProgramCounterAdvancesByTheWidth : Prop :=
  ∀ s t : State, step s = .next t →
    (t.status = .running →
      ∃ op, s.prog[s.pc]? = some op ∧
        ((op ∈ [0#32, 6#32, 7#32] ∧ t.pc = s.pc + 1 + 1) ∨
          (op ∈ [2#32, 3#32, 4#32, 5#32, 8#32] ∧ t.pc = s.pc + 1 + 2))) ∧
    (t.status ≠ .running → t.pc = s.pc)

/-- A step that raises a fault changes nothing but the run status (`60_exceptions.md` section 2;
`40_engine_and_blocks.md` section 2, validation before mutation; the state left by a fault is the
spec's decision D12, log 11). -/
def Obligations.FaultingStepChangesOnlyTheStatus : Prop :=
  ∀ (s t : State) (k : FaultKind), step s = .next t → t.status = .faulted k →
    t = { s with status := .faulted k }

/-- Which faults an executing instruction may raise, and the operand each carries
(`60_exceptions.md` section 2, the table of instructions and faults). That index 8 is
`RegisterOutOfRange`, that a negative operand is `InvalidRegister`, and what `IllegalAddress`
carries are the spec's decisions D3, D4 and D28 (log 8, log 9, log 27). -/
def Obligations.InstructionsRaiseOnlyTheirOwnFaults : Prop :=
  ∀ (i : Instr) (s t : State) (k : FaultKind), s.status = .running → exec i s = .next t →
    t.status = .faulted k → MayRaise i s.mem.capacity k

/-- The output log only grows, by one value at a time, and only where an `OUT` executes
(`10_state.md` section 6, the output log, the spec's decision D14, log 22). -/
def Obligations.OutputGrowsOnlyByOut : Prop :=
  ∀ s t : State, step s = .next t →
    t.out = s.out ∨
    ∃ r k, s.prog[s.pc]? = some 0#32 ∧ s.prog[s.pc + 1]? = some r ∧ Names r k ∧
      t.out = s.out ++ [readReg k s]

/-- Only `STV` writes the data memory, and only the cell its address operand names (`10_state.md`
section 5, data memory). -/
def Obligations.MemoryIsWrittenOnlyByStv : Prop :=
  ∀ (s t : State) (a : Nat), step s = .next t → memCell a t ≠ memCell a s →
    s.prog[s.pc]? = some 5#32 ∧ ∃ addr, s.prog[s.pc + 2]? = some addr ∧ addr.toInt = a

/-- Only `PSH` and `POP` move the data stack pointer, and only `PSH` writes a stack cell, the one at
the pointer (`10_state.md` section 5, data stack; `44_stack_push_pop.md`). -/
def Obligations.DataStackIsReachedOnlyByPushAndPop : Prop :=
  ∀ s t : State, step s = .next t →
    (t.ds ≠ s.ds → s.prog[s.pc]? = some 6#32 ∨ s.prog[s.pc]? = some 7#32) ∧
    ∀ a, readCell a t.ds.cells ≠ readCell a s.ds.cells → s.prog[s.pc]? = some 7#32 ∧ a = s.ds.sp

/-- A register changes only as the destination operand of `MOV` (the second), `LDM`, `LDI`, `POP`
or `ADM` (`10_state.md` section 2, the table of registers written). -/
def Obligations.RegistersChangeOnlyAsDestinations : Prop :=
  ∀ (s t : State) (k : RegIndex), step s = .next t → readReg k t ≠ readReg k s →
    (s.prog[s.pc]? = some 2#32 ∧ ∃ r, s.prog[s.pc + 2]? = some r ∧ Names r k) ∨
    ((∃ op ∈ [3#32, 4#32, 6#32, 8#32], s.prog[s.pc]? = some op) ∧
      ∃ r, s.prog[s.pc + 1]? = some r ∧ Names r k)

/-- The flag update (rule R101): `Z` and `S` of an instruction that completes are those of the
result it reports, with `S` its bit 31, never both 1, `C` and `U` at their prior values; `HLT`
leaves every flag. -/
def Obligations.FlagsFollowTheReportedResult : Prop :=
  ∀ (i : Instr) (s t : State), s.status = .running → exec i s = .next t →
    (t.status = .running →
      ∃ result, Reports i s t result ∧ FlagsFrom result s t ∧
        t.flags.s = (if result.getLsbD 31 then 1#32 else 0#32) ∧
        ¬ (t.flags.z = 1#32 ∧ t.flags.s = 1#32)) ∧
    (i = .hlt → t.flags = s.flags)

/-! ### Faults of operands -/

/-- Register validation (`40_engine_and_blocks.md` section 2, step 4; `60_exceptions.md` section 2,
order of detection): a register operand below 0 or above 8 raises `InvalidRegister`, one equal to
8 raises `RegisterOutOfRange`, before any address check; `MOV` checks source before destination
and every `InvalidRegister` before any `RegisterOutOfRange`. Index 8, the lower bound and the order
are the spec's decisions D3, D4, D5 (log 8, log 9); that a fault changes only the status is D12
(log 11). -/
def Obligations.RegisterOperandsAreValidated : Prop :=
  (∀ (r x : Word) (s : State),
    ∀ i ∈ [Instr.out r, .ldm r x, .ldi r x, .stv r x, .pop r, .psh r, .adm r x],
      ((r.toInt < 0 ∨ 8 < r.toInt) → Raises (.invalidRegister r) i s) ∧
      (r.toInt = 8 → Raises (.registerOutOfRange r) i s)) ∧
  ∀ (rs rd : Word) (s : State),
    ((rs.toInt < 0 ∨ 8 < rs.toInt) → Raises (.invalidRegister rs) (.mov rs rd) s) ∧
    ((0 ≤ rs.toInt ∧ rs.toInt ≤ 8) → (rd.toInt < 0 ∨ 8 < rd.toInt) →
      Raises (.invalidRegister rd) (.mov rs rd) s) ∧
    (rs.toInt = 8 → (0 ≤ rd.toInt ∧ rd.toInt ≤ 8) →
      Raises (.registerOutOfRange rs) (.mov rs rd) s) ∧
    ((0 ≤ rs.toInt ∧ rs.toInt ≤ 7) → rd.toInt = 8 →
      Raises (.registerOutOfRange rd) (.mov rs rd) s)

/-- An address operand below 0 or at or above `MEM_SIZE` makes `LDM`, `STV` and `ADM` raise
`IllegalAddress` with the operand as given and `MEM_SIZE`, and change nothing else: no register,
no cell, no flag (`43_memory_load_store.md`, `45_arithmetic_adm.md`, faults; what the fault carries
and leaves are the spec's decisions D28 and D12, log 27 and log 11). -/
def Obligations.AddressesOutOfBoundsFault : Prop :=
  ∀ (r addr : Word) (k : RegIndex) (s : State), Names r k →
    (addr.toInt < 0 ∨ (s.mem.capacity : Int) ≤ addr.toInt) →
    ∀ i ∈ [Instr.ldm r addr, .stv r addr, .adm r addr],
      Raises (.illegalAddress addr s.mem.capacity) i s

/-! ### The memory primitives -/

/-- `MemRead` (rule R43): `IllegalAddress(addr, MEM_SIZE)` out of bounds, else the cell. -/
def Obligations.MemReadChecksAndReads : Prop :=
  ∀ (addr : Word) (s : State),
    ((addr.toInt < 0 ∨ (s.mem.capacity : Int) ≤ addr.toInt) →
      memRead addr s = .error (.illegalAddress addr s.mem.capacity)) ∧
    ((0 ≤ addr.toInt ∧ addr.toInt < s.mem.capacity) →
      memRead addr s = .ok (memCell addr.toInt.toNat s))

/-- `MemWrite` (rule R44): `IllegalAddress(addr, MEM_SIZE)` out of bounds and nothing written;
else the cell holds the value, every other cell is unchanged, and so is all other state. -/
def Obligations.MemWriteChecksAndWrites : Prop :=
  ∀ (addr v : Word) (s : State),
    ((addr.toInt < 0 ∨ (s.mem.capacity : Int) ≤ addr.toInt) →
      memWrite addr v s = .error (.illegalAddress addr s.mem.capacity)) ∧
    ((0 ≤ addr.toInt ∧ addr.toInt < s.mem.capacity) →
      ∃ t, memWrite addr v s = .ok t ∧ memCell addr.toInt.toNat t = v ∧
        KeepsMemBut addr.toInt.toNat s t ∧ { t with mem := s.mem } = s)

/-! ### The stack primitives -/

/-- `Push` (rule R50): the cell at the pointer holds the value and no other cell changes; the
pointer becomes `t = sp + 1`, or 0 if `t >= cap - 1`. -/
def Obligations.PushWritesThenAdvances : Prop :=
  ∀ (v : Word) (k : Stack),
    readCell k.sp (push v k).cells = v ∧
    (∀ j, j ≠ k.sp → readCell j (push v k).cells = readCell j k.cells) ∧
    (push v k).cap = k.cap ∧
    ((push v k).sp : Int) = if (k.sp : Int) + 1 ≥ (k.cap : Int) - 1 then 0 else (k.sp : Int) + 1

/-- `Pop` (rule R51), on a stack with a cell: the pointer becomes `t = sp - 1`, or `cap - 1` if
`t < 0`; the value is the cell there; no cell changes. -/
def Obligations.PopRetreatsThenReads : Prop :=
  ∀ k : Stack, 1 ≤ k.cap →
    ((pop k).2.sp : Int) = (if (k.sp : Int) - 1 < 0 then (k.cap : Int) - 1 else (k.sp : Int) - 1) ∧
    (pop k).1 = readCell (pop k).2.sp k.cells ∧
    (pop k).2.cells = k.cells ∧ (pop k).2.cap = k.cap

/-- The pointer ranges (`20_memory.md` section 5, pointer invariant): after a push `[0, cap - 2]`,
or 0 when the capacity is 1; after a pop `[0, cap - 1]`, and `cap - 1` only from 0. -/
def Obligations.StackPointerStaysInRange : Prop :=
  ∀ (v : Word) (k : Stack), k.sp < k.cap →
    (2 ≤ k.cap → ((push v k).sp : Int) ≤ (k.cap : Int) - 2) ∧
    (k.cap = 1 → (push v k).sp = 0) ∧
    (pop k).2.sp < k.cap ∧
    ((pop k).2.sp + 1 = k.cap → k.sp = 0)

/-- A push and the pop right after it return the value and restore the pointer exactly when the
pointer before was not `cap - 2`; there the pop reads the last cell instead (`20_memory.md`
section 5, push then pop; `90_conflicts.md` C10). -/
def Obligations.PushThenPopRestoresUnlessItWraps : Prop :=
  ∀ (v : Word) (k : Stack), k.sp < k.cap →
    (((pop (push v k)).1 = v ∧ (pop (push v k)).2.sp = k.sp) ↔ (k.sp : Int) ≠ (k.cap : Int) - 2) ∧
    ((k.sp : Int) = (k.cap : Int) - 2 →
      (pop (push v k)).1 = readCell (k.cap - 1) k.cells ∧ (pop (push v k)).2.sp = k.cap - 1)

/-- Consecutive pushes from pointer 0 (`20_memory.md` section 5, pushes from reset): the pointer
after `m` of them is `m mod (cap - 1)`, the last cell is never written, and the first `cap - 1`
values stand in cells 0, 1, 2 and so on. -/
def Obligations.ConsecutivePushesCycleBelowTheLastCell : Prop :=
  ∀ (k : Stack) (vs : List Word), k.sp = 0 → 3 ≤ k.cap →
    (pushAll vs k).sp = vs.length % (k.cap - 1) ∧
    readCell (k.cap - 1) (pushAll vs k).cells = readCell (k.cap - 1) k.cells ∧
    (vs.length ≤ k.cap - 1 → ∀ j v, vs[j]? = some v → readCell j (pushAll vs k).cells = v)

/-- Up to `cap - 2` values pushed from pointer 0 come back in reverse order and leave the pointer
at 0 (`20_memory.md` section 5, pushes from reset, last sentence). -/
def Obligations.PushedValuesPopInReverse : Prop :=
  ∀ (k : Stack) (vs : List Word), k.sp = 0 → vs.length + 2 ≤ k.cap →
    (popMany vs.length (pushAll vs k)).1 = vs.reverse ∧
    (popMany vs.length (pushAll vs k)).2.sp = 0

/-! ### The alu -/

/-- `wrap32(v) = ((v + 2^31) mod 2^32) - 2^31`, the identity on `Int32` (`00_scope.md` section 4;
that overflow wraps is the spec's decision D1, log 12). -/
def Obligations.WrapIsTheSignedRemainder : Prop :=
  (∀ v : Int, (wrap32 v).toInt = (v + 2 ^ 31) % 2 ^ 32 - 2 ^ 31) ∧
  ∀ w : Word, wrap32 w.toInt = w

/-- The laws of `alu(ADD)`: the wrapped exact sum, commutative, associative, identity 0, inverses,
and the same 32 bits for unsigned operands (`45_arithmetic_adm.md`, integer laws, addition; the
spec's decision D1, log 12). -/
def Obligations.AdditionIsACommutativeGroup : Prop :=
  (∀ a b : Word, alu .add a b = some (aluAdd a b) ∧
    (aluAdd a b).toInt = (a.toInt + b.toInt + 2 ^ 31) % 2 ^ 32 - 2 ^ 31 ∧
    (aluAdd a b).toNat = (a.toNat + b.toNat) % 2 ^ 32) ∧
  (∀ a b : Word, aluAdd a b = aluAdd b a) ∧
  (∀ a b c : Word, aluAdd (aluAdd a b) c = aluAdd a (aluAdd b c)) ∧
  (∀ a : Word, aluAdd a 0#32 = a) ∧
  (∀ a : Word, aluAdd a (wrap32 (-a.toInt)) = 0#32) ∧
  wrap32 (-(-2147483648)) = wrap32 (-2147483648)

/-- Overflow of `alu(ADD)` by the signs of the operands (`45_arithmetic_adm.md`, integer laws,
overflow at every sign combination; the spec's decision D1, log 12). -/
def Obligations.AdditionOverflowsBySign : Prop :=
  ∀ a b : Word,
    (0 < a.toInt → 0 < b.toInt → 2147483647 < a.toInt + b.toInt → (aluAdd a b).toInt < 0) ∧
    (a.toInt < 0 → b.toInt < 0 → a.toInt + b.toInt < -2147483648 → 0 ≤ (aluAdd a b).toInt) ∧
    ((a.toInt ≤ 0 ∧ 0 ≤ b.toInt) ∨ (0 ≤ a.toInt ∧ b.toInt ≤ 0) →
      (aluAdd a b).toInt = a.toInt + b.toInt) ∧
    ((-2147483648 ≤ a.toInt + b.toInt ∧ a.toInt + b.toInt ≤ 2147483647) →
      (aluAdd a b).toInt = a.toInt + b.toInt)

/-- The operators no instruction reaches: subtraction and multiplication wrap, division by a
non-zero divisor truncates toward zero, division by zero has no value (`45_arithmetic_adm.md`,
integer laws, the unreachable operators; the spec's decision D21, log 13). -/
def Obligations.UnreachableOperatorsWrapAndTruncate : Prop :=
  ∀ a b : Word,
    (∃ r, alu .sub a b = some r ∧ r.toInt = (a.toInt - b.toInt + 2 ^ 31) % 2 ^ 32 - 2 ^ 31) ∧
    (∃ r, alu .mul a b = some r ∧ r.toInt = (a.toInt * b.toInt + 2 ^ 31) % 2 ^ 32 - 2 ^ 31) ∧
    (alu .div a b = none ↔ b.toInt = 0) ∧
    (b.toInt ≠ 0 → ∃ r, alu .div a b = some r ∧
      ((a.toInt = -2147483648 ∧ b.toInt = -1) → r.toInt = -2147483648) ∧
      (¬ (a.toInt = -2147483648 ∧ b.toInt = -1) →
        (r.toInt * b.toInt - a.toInt).natAbs < b.toInt.natAbs ∧
        (r.toInt * b.toInt).natAbs ≤ a.toInt.natAbs ∧ 0 ≤ r.toInt * b.toInt * a.toInt))

/-! ### The instructions: where each completes, its result, and its frame -/

/-- `OUT` completes for every register and state: it appends the register's value to the output
and sets the flags from it; registers, memory and the data stack are kept
(`41_system_out_hlt.md`, OUT: effect, state written, flags). -/
def Obligations.OutEmitsTheRegister : Prop :=
  ∀ (r : Word) (k : RegIndex) (s : State), Names r k →
    ∃ t, exec (.out r) s = .next t ∧ t.out = s.out ++ [readReg k s] ∧
      Advances 2 (readReg k s) s t ∧ KeepsRegs s t ∧ KeepsMem s t ∧ t.ds = s.ds

/-- `HLT` completes in every state: the run status becomes `Halted(HLT)` and nothing else changes,
no advance, no flags; a running machine that finds it at the program counter does exactly that,
whatever the buffer holds after it; and no other instruction halts (`41_system_out_hlt.md`, HLT;
that the program counter stays is the spec's decision D11, log 10). -/
def Obligations.HltEndsTheRunAndNothingElse : Prop :=
  (∀ s : State, exec .hlt s = .next { s with status := .halted .hlt }) ∧
  (∀ s : State, s.Configured → s.status = .running → s.prog[s.pc]? = some 1#32 →
    step s = .next { s with status := .halted .hlt }) ∧
  ∀ (i : Instr) (s t : State), s.status = .running → exec i s = .next t →
    t.status = .halted .hlt → i = .hlt

/-- `MOV` completes for every pair of registers: the destination, the second operand, takes the
source's value and every other register is kept; flags from the value
(`42_move_and_immediate.md`, MOV: effect, state written, flags, corner cases). -/
def Obligations.MovCopiesTheSource : Prop :=
  ∀ (rs rd : Word) (a b : RegIndex) (s : State), Names rs a → Names rd b →
    ∃ t, exec (.mov rs rd) s = .next t ∧ readReg b t = readReg a s ∧ KeepsRegsBut b s t ∧
      Advances 3 (readReg a s) s t ∧ KeepsMem s t ∧ t.ds = s.ds ∧ t.out = s.out

/-- `LDI` completes for every register and literal: the register takes the literal whole; flags
from the literal (`42_move_and_immediate.md`, LDI: effect, state written, flags). -/
def Obligations.LdiLoadsTheLiteral : Prop :=
  ∀ (r literal : Word) (k : RegIndex) (s : State), Names r k →
    ∃ t, exec (.ldi r literal) s = .next t ∧ readReg k t = literal ∧ KeepsRegsBut k s t ∧
      Advances 3 literal s t ∧ KeepsMem s t ∧ t.ds = s.ds ∧ t.out = s.out

/-- `LDM` completes for every register and every address in bounds: the register takes the cell's
value, memory is kept; flags from the value (`43_memory_load_store.md`, LDM: effect, state written,
flags). -/
def Obligations.LdmLoadsTheCell : Prop :=
  ∀ (r addr : Word) (k : RegIndex) (s : State), Names r k →
    0 ≤ addr.toInt → addr.toInt < s.mem.capacity →
    ∃ t, exec (.ldm r addr) s = .next t ∧ readReg k t = memCell addr.toInt.toNat s ∧
      KeepsRegsBut k s t ∧ Advances 3 (memCell addr.toInt.toNat s) s t ∧ KeepsMem s t ∧
      t.ds = s.ds ∧ t.out = s.out

/-- `STV` completes for every register and every address in bounds: the addressed cell takes the
register's value and every other cell reads as before; the flags are those of the result 0,
`Z = 1` and `S = 0`, whatever was stored (`43_memory_load_store.md`, STV: effect, state written,
flags). -/
def Obligations.StvStoresTheRegister : Prop :=
  ∀ (r addr : Word) (k : RegIndex) (s : State), Names r k →
    0 ≤ addr.toInt → addr.toInt < s.mem.capacity →
    ∃ t, exec (.stv r addr) s = .next t ∧ memCell addr.toInt.toNat t = readReg k s ∧
      KeepsMemBut addr.toInt.toNat s t ∧ KeepsRegs s t ∧ Advances 3 0#32 s t ∧
      t.flags.z = 1#32 ∧ t.flags.s = 0#32 ∧ t.ds = s.ds ∧ t.out = s.out

/-- `POP` completes for every register and state with a stack cell: the pointer retreats, from 0 to
`STACK_SIZE - 1`, the register takes the cell there, no stack cell changes; flags from the value
(`44_stack_push_pop.md`, POP: effect, state written, flags, corner cases). -/
def Obligations.PopLoadsTheStackCell : Prop :=
  ∀ (r : Word) (k : RegIndex) (s : State), Names r k → 1 ≤ s.ds.cap →
    ∃ t, exec (.pop r) s = .next t ∧
      (t.ds.sp : Int) = (if s.ds.sp = 0 then (s.ds.cap : Int) - 1 else (s.ds.sp : Int) - 1) ∧
      readReg k t = readCell t.ds.sp s.ds.cells ∧ t.ds.cells = s.ds.cells ∧ t.ds.cap = s.ds.cap ∧
      KeepsRegsBut k s t ∧ Advances 2 (readCell t.ds.sp s.ds.cells) s t ∧ KeepsMem s t ∧
      t.out = s.out

/-- `PSH` completes for every register and state: the cell at the old pointer takes the register's
value and every other stack cell is kept; the pointer advances, to 0 when it would reach
`STACK_SIZE - 1`; flags from the value (`44_stack_push_pop.md`, PSH: effect, state written, flags,
corner cases). -/
def Obligations.PshStoresOnTheStack : Prop :=
  ∀ (r : Word) (k : RegIndex) (s : State), Names r k →
    ∃ t, exec (.psh r) s = .next t ∧
      readCell s.ds.sp t.ds.cells = readReg k s ∧
      (∀ j, j ≠ s.ds.sp → readCell j t.ds.cells = readCell j s.ds.cells) ∧
      (t.ds.sp : Int) = (if (s.ds.sp : Int) + 1 ≥ (s.ds.cap : Int) - 1 then 0
        else (s.ds.sp : Int) + 1) ∧
      t.ds.cap = s.ds.cap ∧ KeepsRegs s t ∧ Advances 2 (readReg k s) s t ∧ KeepsMem s t ∧
      t.out = s.out

/-- `ADM` completes for every register and every address in bounds: the register takes the wrapped
sum of itself and the cell, memory is kept; flags from the sum (`45_arithmetic_adm.md`, ADM:
effect, state written, flags; that the sum wraps is the spec's decision D1, log 12). -/
def Obligations.AdmAddsTheCell : Prop :=
  ∀ (r addr : Word) (k : RegIndex) (s : State), Names r k →
    0 ≤ addr.toInt → addr.toInt < s.mem.capacity →
    ∃ t, exec (.adm r addr) s = .next t ∧
      (readReg k t).toInt =
        ((readReg k s).toInt + (memCell addr.toInt.toNat s).toInt + 2 ^ 31) % 2 ^ 32 - 2 ^ 31 ∧
      KeepsRegsBut k s t ∧ Advances 3 (readReg k t) s t ∧ KeepsMem s t ∧ t.ds = s.ds ∧
      t.out = s.out

/-! ### Instructions in a row -/

/-- The memory round trip of the document: store a register, load the cell into any register, and
that register holds the value (`43_memory_load_store.md`, LDM, worked example). -/
def Obligations.StoreThenLoadReturnsTheValue : Prop :=
  ∀ (r₁ r₂ addr : Word) (a b : RegIndex) (s : State), Names r₁ a → Names r₂ b →
    0 ≤ addr.toInt → addr.toInt < s.mem.capacity →
    ∃ t u, exec (.stv r₁ addr) s = .next t ∧ exec (.ldm r₂ addr) t = .next u ∧
      readReg b u = readReg a s

/-- The stack round trip of the document, with its exact bound: push a register and pop into any
register, and that register holds the value with the pointer back, unless the push wrapped
(`44_stack_push_pop.md`, POP, worked example; `90_conflicts.md` C10). -/
def Obligations.PushThenPopReturnsTheValue : Prop :=
  ∀ (r₁ r₂ : Word) (a b : RegIndex) (s : State), Names r₁ a → Names r₂ b →
    s.ds.sp < s.ds.cap → (s.ds.sp : Int) ≠ (s.ds.cap : Int) - 2 →
    ∃ t u, exec (.psh r₁) s = .next t ∧ exec (.pop r₂) t = .next u ∧
      readReg b u = readReg a s ∧ u.ds.sp = s.ds.sp

/-! ### Runs -/

/-- Every run ends: from any running or ended configured state with `pc` in `[0, LEN]`, at most
`floor((LEN - pc) / 2) + 1` steps leave a status that is not running; so for a configuration in
bounds `run` reports, the final state is the one those steps lead to from reset, and the report
says how it ended (`40_engine_and_blocks.md` section 2, step 9 and the host interface). That an
unrecognised opcode ends a run too is the spec's decision D2 (log 7), that the empty program halts
at once is D10 (log 18), and the shape of the report is D29 (log 19). -/
def Obligations.EveryRunEndsWithinItsBound : Prop :=
  (∀ s : State, s.Configured → s.pc ≤ s.prog.length →
    (runLoop ((s.prog.length - s.pc) / 2 + 1) s).status ≠ .running) ∧
  ∀ (c : Config) (prog : List Word), c.Ok → prog.length ≤ maxInt32 →
    ∃ r t, run c prog = some (r, t) ∧ t.status ≠ .running ∧ ReportsTheEnd r t ∧
      t = runLoop (prog.length / 2 + 1) (State.construct c prog)

/-- A program that meets the loader's duty along the path executed runs to success, whatever stands
behind its first `HLT`, and whatever the capacities and the reset contents; it ends by `HLT` exactly
when it has one (`70_reset_and_hazards.md` section 2). That the empty program halts at once is the
spec's decision D10 (log 18), and that the two halts are told apart is D13 (log 4). -/
def Obligations.LoadableProgramsRunToSuccess : Prop :=
  ∀ (c : Config) (prog : List Word) (is : List Instr) (tail : List Word), c.Ok →
    prog.length ≤ maxInt32 → MeetsLoadersDuty c.memSize prog is tail →
    ∃ t, run c prog = some (.success, t) ∧
      t.status = .halted (if .hlt ∈ is then .hlt else .endOfBuffer)

/-- A run that ends in success had a program that meets the loader's duty along the path executed
(`70_reset_and_hazards.md` section 2). That each breach is a fault is, for an opcode, the spec's
decision D2 (log 7), and for register operands D3 and D4 (log 8, log 9). -/
def Obligations.SuccessfulRunsMetTheLoadersDuty : Prop :=
  ∀ (c : Config) (prog : List Word) (t : State), run c prog = some (.success, t) →
    ∃ is tail, MeetsLoadersDuty c.memSize prog is tail
end

