-- ==== Sys2Proof/Laws/Alu.lean ====
section
/-! SUPPORT. The wrapped exact sum is the sum of the bit patterns. -/

namespace Sys2Proof.Machine

/-- `alu(ADD)` is addition modulo `2^32` of the bit patterns (rule R124). -/
theorem aluAdd_eq_add (a b : Word) : aluAdd a b = a + b := by
  apply BitVec.eq_of_toInt_eq
  simp [aluAdd, wrap32, BitVec.toInt_ofInt, BitVec.toInt_add]

end Sys2Proof.Machine
end

