-- ==== Sys2Proof/Laws/Cells.lean ====
section
/-! SUPPORT. The laws of the sparse arrays of cells: read after write, the canonical form kept,
and equal contents are equal lists. -/

namespace Sys2Proof.Machine

/-! ### Read after write -/

theorem readCell_cons (a b : Nat) (v : Word) (m : Cells) :
    readCell a ((b, v) :: m) = if b = a then v else readCell a m := rfl

theorem readCell_eraseCell_same (a : Nat) (m : Cells) :
    readCell a (eraseCell a m) = unlistedCell := by
  induction m with
  | nil => rfl
  | cons c m ih =>
    obtain ⟨b, w⟩ := c
    by_cases hb : b = a
    · simpa [eraseCell, hb] using ih
    · simpa [eraseCell, hb, readCell_cons] using ih

theorem readCell_eraseCell_other {a b : Nat} (h : b ≠ a) (m : Cells) :
    readCell b (eraseCell a m) = readCell b m := by
  induction m with
  | nil => rfl
  | cons c m ih =>
    obtain ⟨d, w⟩ := c
    by_cases hd : d = a
    · have : a ≠ b := fun e => h e.symm
      simpa [eraseCell, hd, readCell_cons, this] using ih
    · have ih' : readCell b (List.filter (fun c => c.1 ≠ a) m) = readCell b m := ih
      by_cases hb : d = b <;> simp_all [eraseCell, readCell_cons]

theorem readCell_insertCell_other {a b : Nat} (h : b ≠ a) (v : Word) (m : Cells) :
    readCell b (insertCell a v m) = readCell b m := by
  have hab : a ≠ b := fun e => h e.symm
  induction m with
  | nil => simp [insertCell, readCell, hab]
  | cons c m ih =>
    obtain ⟨d, w⟩ := c
    by_cases hd : a < d
    · simp [insertCell, hd, readCell_cons, hab]
    · simp [insertCell, hd, readCell_cons, ih]

theorem readCell_insertCell_same (a : Nat) (v : Word) (m : Cells) (h : ∀ c ∈ m, c.1 ≠ a) :
    readCell a (insertCell a v m) = v := by
  induction m with
  | nil => simp [insertCell, readCell]
  | cons c m ih =>
    obtain ⟨d, w⟩ := c
    have hda : d ≠ a := h (d, w) (List.mem_cons_self ..)
    by_cases hd : a < d
    · simp [insertCell, hd, readCell_cons]
    · simpa [insertCell, hd, readCell_cons, hda] using
        ih fun c hc => h c (List.mem_cons_of_mem _ hc)

theorem eraseCell_ne (a : Nat) (m : Cells) : ∀ c ∈ eraseCell a m, c.1 ≠ a := by
  intro c hc
  simpa using (List.mem_filter.mp hc).2

/-- A cell reads as the value last written to it. -/
@[simp] theorem readCell_writeCell_same (a : Nat) (v : Word) (m : Cells) :
    readCell a (writeCell a v m) = v := by
  by_cases hv : v = unlistedCell
  · rw [writeCell, if_pos hv, readCell_eraseCell_same, hv]
  · rw [writeCell, if_neg hv, readCell_insertCell_same a v _ (eraseCell_ne a m)]

/-- A write leaves every other cell alone. -/
theorem readCell_writeCell_other {a b : Nat} (h : b ≠ a) (v : Word) (m : Cells) :
    readCell b (writeCell a v m) = readCell b m := by
  by_cases hv : v = unlistedCell
  · rw [writeCell, if_pos hv, readCell_eraseCell_other h]
  · rw [writeCell, if_neg hv, readCell_insertCell_other h, readCell_eraseCell_other h]

/-! ### The canonical form -/

theorem mem_insertCell {a : Nat} {v : Word} {m : Cells} {c : Nat × Word}
    (h : c ∈ insertCell a v m) : c = (a, v) ∨ c ∈ m := by
  induction m with
  | nil => simpa [insertCell] using h
  | cons d m ih =>
    obtain ⟨b, w⟩ := d
    by_cases hb : a < b
    · simpa [insertCell, hb] using h
    · simp only [insertCell, if_neg hb, List.mem_cons] at h
      rcases h with rfl | h
      · exact .inr (List.mem_cons_self ..)
      · exact (ih h).imp id (List.mem_cons_of_mem _)

theorem insertCell_rising {a : Nat} {v : Word} {m : Cells}
    (hm : m.Pairwise fun c d => c.1 < d.1) (hne : ∀ c ∈ m, c.1 ≠ a) :
    (insertCell a v m).Pairwise fun c d => c.1 < d.1 := by
  induction m with
  | nil => simp [insertCell]
  | cons d m ih =>
    obtain ⟨b, w⟩ := d
    have hmem := List.pairwise_cons.mp hm
    by_cases hb : a < b
    · rw [insertCell, if_pos hb]
      refine List.pairwise_cons.mpr ⟨fun c hc => ?_, hm⟩
      rcases List.mem_cons.mp hc with rfl | hc
      · exact hb
      · exact lt_trans hb (hmem.1 c hc)
    · rw [insertCell, if_neg hb]
      have hba : b < a := lt_of_le_of_ne (not_lt.mp hb) (hne (b, w) (List.mem_cons_self ..))
      refine List.pairwise_cons.mpr ⟨fun c hc => ?_, ih hmem.2 fun c hc => ?_⟩
      · rcases mem_insertCell hc with rfl | hc
        · exact hba
        · exact hmem.1 c hc
      · exact hne c (List.mem_cons_of_mem _ hc)

theorem eraseCell_wf {cap : Nat} {m : Cells} (a : Nat) (h : Cells.wf cap m) :
    Cells.wf cap (eraseCell a m) :=
  ⟨h.1.filter _, fun c hc => h.2 c (List.mem_filter.mp hc).1⟩

/-- A write inside the array keeps the canonical form. -/
theorem writeCell_wf {cap a : Nat} {m : Cells} (v : Word) (h : Cells.wf cap m) (ha : a < cap) :
    Cells.wf cap (writeCell a v m) := by
  have he := eraseCell_wf a h
  by_cases hv : v = unlistedCell
  · rwa [writeCell, if_pos hv]
  · rw [writeCell, if_neg hv]
    refine ⟨insertCell_rising he.1 (eraseCell_ne a m), fun c hc => ?_⟩
    rcases mem_insertCell hc with rfl | hc
    · exact ⟨hv, ha⟩
    · exact he.2 c hc

/-- The empty list is the canonical form of the contents that are all `unlistedCell`. -/
theorem nil_wf (cap : Nat) : Cells.wf cap [] := ⟨.nil, fun _ hc => nomatch hc⟩

/-! ### Equal contents are equal data -/

theorem readCell_of_lt {b : Nat} {m : Cells} (h : ∀ c ∈ m, b < c.1) :
    readCell b m = unlistedCell := by
  induction m with
  | nil => rfl
  | cons c m ih =>
    obtain ⟨d, w⟩ := c
    have hd : d ≠ b := ne_of_gt (h (d, w) (List.mem_cons_self ..))
    rw [readCell_cons, if_neg hd, ih fun c hc => h c (List.mem_cons_of_mem _ hc)]

/-- Two canonical contents that read the same at every index are the same list. -/
theorem cells_ext {cap : Nat} {m n : Cells} (hm : Cells.wf cap m) (hn : Cells.wf cap n)
    (h : ∀ a, readCell a m = readCell a n) : m = n := by
  induction m generalizing n with
  | nil =>
    cases n with
    | nil => rfl
    | cons d n =>
      obtain ⟨b, w⟩ := d
      have := h b
      simp only [readCell, if_true] at this
      exact absurd this.symm (hn.2 (b, w) (List.mem_cons_self ..)).1
  | cons c m ih =>
    obtain ⟨a, v⟩ := c
    obtain ⟨hma, hm'⟩ := List.pairwise_cons.mp hm.1
    have hv := (hm.2 (a, v) (List.mem_cons_self ..)).1
    cases n with
    | nil =>
      have := h a
      simp only [readCell, if_true] at this
      exact absurd this hv
    | cons d n =>
      obtain ⟨b, w⟩ := d
      obtain ⟨hnb, hn'⟩ := List.pairwise_cons.mp hn.1
      have hw := (hn.2 (b, w) (List.mem_cons_self ..)).1
      have key : a = b := by
        rcases lt_trichotomy a b with hab | hab | hab
        · have := h a
          rw [readCell_cons, if_pos rfl, readCell_of_lt fun c hc => ?_] at this
          · exact absurd this hv
          · rcases List.mem_cons.mp hc with rfl | hc
            exacts [hab, lt_trans hab (hnb c hc)]
        · exact hab
        · have := (h b).symm
          rw [readCell_cons, if_pos rfl, readCell_of_lt fun c hc => ?_] at this
          · exact absurd this hw
          · rcases List.mem_cons.mp hc with rfl | hc
            exacts [hab, lt_trans hab (hma c hc)]
      subst key
      have hvw : v = w := by simpa [readCell_cons] using h a
      subst hvw
      have hrest : ∀ x, readCell x m = readCell x n := by
        intro x
        by_cases hx : a = x
        · subst hx
          rw [readCell_of_lt hma, readCell_of_lt hnb]
        · simpa [readCell_cons, hx] using h x
      rw [ih ⟨hm', fun c hc => hm.2 c (List.mem_cons_of_mem _ hc)⟩
        ⟨hn', fun c hc => hn.2 c (List.mem_cons_of_mem _ hc)⟩ hrest]

/-! ### The operations over the data memory and the stacks -/

@[simp] theorem memCell_storeCell_same (a : Nat) (v : Word) (s : State) :
    memCell a (storeCell a v s) = v := readCell_writeCell_same a v s.mem.cells

theorem memCell_storeCell_other {a b : Nat} (h : b ≠ a) (v : Word) (s : State) :
    memCell b (storeCell a v s) = memCell b s := readCell_writeCell_other h v s.mem.cells

theorem storeCell_mem_wf {a : Nat} (v : Word) {s : State} (h : s.mem.wf)
    (ha : a < s.mem.capacity) : (storeCell a v s).mem.wf := writeCell_wf v h ha

/-- `push` keeps the canonical form and the pointer in range (rule R52). -/
theorem push_wf (v : Word) {k : Stack} (h : k.wf) : (push v k).wf := by
  refine ⟨writeCell_wf v h.1 h.2, ?_⟩
  have := h.2
  show pushPointer k.cap k.sp < k.cap
  unfold pushPointer
  split <;> omega

/-- `pop` keeps the canonical form and the pointer in range (rule R52). -/
theorem pop_wf {k : Stack} (h : k.wf) : (pop k).2.wf := by
  refine ⟨h.1, ?_⟩
  have := h.2
  show popPointer k.cap k.sp < k.cap
  unfold popPointer
  split <;> omega

end Sys2Proof.Machine
end

