-- ==== Sys2Proof/Laws/Syntax.lean ====
section
/-! SUPPORT. The operands of each instruction by role, so that no later proof reads the format
table again. -/

namespace Sys2Proof

@[simp] theorem registerOperands_out (r : Word) :
    (Instr.out r).registerOperands = [r] := rfl
@[simp] theorem registerOperands_hlt :
    Instr.hlt.registerOperands = [] := rfl
@[simp] theorem registerOperands_mov (rs rd : Word) :
    (Instr.mov rs rd).registerOperands = [rs, rd] := rfl
@[simp] theorem registerOperands_ldm (r addr : Word) :
    (Instr.ldm r addr).registerOperands = [r] := rfl
@[simp] theorem registerOperands_ldi (r literal : Word) :
    (Instr.ldi r literal).registerOperands = [r] := rfl
@[simp] theorem registerOperands_stv (r addr : Word) :
    (Instr.stv r addr).registerOperands = [r] := rfl
@[simp] theorem registerOperands_pop (r : Word) :
    (Instr.pop r).registerOperands = [r] := rfl
@[simp] theorem registerOperands_psh (r : Word) :
    (Instr.psh r).registerOperands = [r] := rfl
@[simp] theorem registerOperands_adm (r addr : Word) :
    (Instr.adm r addr).registerOperands = [r] := rfl
@[simp] theorem addressOperands_out (r : Word) :
    (Instr.out r).addressOperands = [] := rfl
@[simp] theorem addressOperands_hlt :
    Instr.hlt.addressOperands = [] := rfl
@[simp] theorem addressOperands_mov (rs rd : Word) :
    (Instr.mov rs rd).addressOperands = [] := rfl
@[simp] theorem addressOperands_ldm (r addr : Word) :
    (Instr.ldm r addr).addressOperands = [addr] := rfl
@[simp] theorem addressOperands_ldi (r literal : Word) :
    (Instr.ldi r literal).addressOperands = [] := rfl
@[simp] theorem addressOperands_stv (r addr : Word) :
    (Instr.stv r addr).addressOperands = [addr] := rfl
@[simp] theorem addressOperands_pop (r : Word) :
    (Instr.pop r).addressOperands = [] := rfl
@[simp] theorem addressOperands_psh (r : Word) :
    (Instr.psh r).addressOperands = [] := rfl
@[simp] theorem addressOperands_adm (r addr : Word) :
    (Instr.adm r addr).addressOperands = [addr] := rfl

/-- Well-formedness, operand by operand. -/
theorem wellFormed_iff (i : Instr) :
    i.WellFormed ↔ ∀ r ∈ i.registerOperands, NamesRegister r := by
  simp [Instr.WellFormed, List.all_eq_true]

/-- Addresses in bounds, operand by operand. -/
theorem addressesIn_iff (memSize : Nat) (i : Instr) :
    i.AddressesIn memSize ↔ ∀ a ∈ i.addressOperands, NamesCell memSize a := by
  simp [Instr.AddressesIn, List.all_eq_true]

end Sys2Proof
end

