-- ==== Sys2Proof/Laws/Decode.lean ====
section
/-! SUPPORT. The decoder's parts: the opcode map is a bijection with the table, and what taking
the operands of a recognised opcode can answer. -/

namespace Sys2Proof

/-- Each row's opcode element is recognised as that row. -/
@[simp] theorem decodeOpcode_value (o : Opcode) : decodeOpcode o.value = some o := by
  cases o <;> rfl

/-- Only a row's own opcode element is recognised as that row (rule R67). -/
theorem eq_value_of_decodeOpcode {w : Word} {o : Opcode} (h : decodeOpcode w = some o) :
    w = o.value := by
  unfold decodeOpcode at h
  have := List.find?_some h
  exact (of_decide_eq_true this).symm

/-- Taking operands answers with an instruction of that opcode, whose operands stood first. -/
theorem takeOperands_ok {o : Opcode} {l rest : List Word} {i : Instr} :
    takeOperands o l = .ok (i, rest) ↔ i.opcode = o ∧ l = i.operands ++ rest := by
  constructor
  · intro h
    rcases l with _ | ⟨a, _ | ⟨b, l⟩⟩ <;> cases o <;>
      simp [takeOperands, takeOne, takeTwo] at h <;>
      obtain ⟨rfl, rfl⟩ := h <;> simp [Instr.opcode, Instr.operands]
  · rintro ⟨rfl, rfl⟩
    cases i <;> rfl

/-- Taking operands fails only for want of elements (rule R95). -/
theorem takeOperands_error {o : Opcode} {l : List Word} {e : DecodeError}
    (h : takeOperands o l = .error e) :
    e = .unfinishedInstruction ∧ l.length < o.operandCount := by
  rcases l with _ | ⟨a, _ | ⟨b, l⟩⟩ <;> cases o <;>
    simp [takeOperands, takeOne, takeTwo] at h <;> subst e <;>
    simp [Opcode.operandCount, Opcode.format, Format.roles]

end Sys2Proof
end

