-- ==== Sys2Proof/Laws/State.lean ====
section
/-! SUPPORT. One lemma per field per update of the state, so that no later proof unfolds a record
update; and what reading a register, a memory cell or a flag gives after each update. -/

namespace Sys2Proof.Machine

variable (s : State)

/-! ### `writeReg` -/

@[simp] theorem writeReg_regs (r : RegIndex) (v : Word) : (writeReg r v s).regs = s.regs.set r v := rfl
@[simp] theorem writeReg_flags (r : RegIndex) (v : Word) : (writeReg r v s).flags = s.flags := rfl
@[simp] theorem writeReg_pc (r : RegIndex) (v : Word) : (writeReg r v s).pc = s.pc := rfl
@[simp] theorem writeReg_mem (r : RegIndex) (v : Word) : (writeReg r v s).mem = s.mem := rfl
@[simp] theorem writeReg_ds (r : RegIndex) (v : Word) : (writeReg r v s).ds = s.ds := rfl
@[simp] theorem writeReg_cs (r : RegIndex) (v : Word) : (writeReg r v s).cs = s.cs := rfl
@[simp] theorem writeReg_out (r : RegIndex) (v : Word) : (writeReg r v s).out = s.out := rfl
@[simp] theorem writeReg_status (r : RegIndex) (v : Word) : (writeReg r v s).status = s.status := rfl
@[simp] theorem writeReg_prog (r : RegIndex) (v : Word) : (writeReg r v s).prog = s.prog := rfl

/-! ### `storeCell` -/

@[simp] theorem storeCell_regs (a : Nat) (v : Word) : (storeCell a v s).regs = s.regs := rfl
@[simp] theorem storeCell_flags (a : Nat) (v : Word) : (storeCell a v s).flags = s.flags := rfl
@[simp] theorem storeCell_pc (a : Nat) (v : Word) : (storeCell a v s).pc = s.pc := rfl
@[simp] theorem storeCell_mem (a : Nat) (v : Word) : (storeCell a v s).mem = { s.mem with cells := writeCell a v s.mem.cells } := rfl
@[simp] theorem storeCell_ds (a : Nat) (v : Word) : (storeCell a v s).ds = s.ds := rfl
@[simp] theorem storeCell_cs (a : Nat) (v : Word) : (storeCell a v s).cs = s.cs := rfl
@[simp] theorem storeCell_out (a : Nat) (v : Word) : (storeCell a v s).out = s.out := rfl
@[simp] theorem storeCell_status (a : Nat) (v : Word) : (storeCell a v s).status = s.status := rfl
@[simp] theorem storeCell_prog (a : Nat) (v : Word) : (storeCell a v s).prog = s.prog := rfl

/-! ### `setDataStack` -/

@[simp] theorem setDataStack_regs (k : Stack) : (setDataStack k s).regs = s.regs := rfl
@[simp] theorem setDataStack_flags (k : Stack) : (setDataStack k s).flags = s.flags := rfl
@[simp] theorem setDataStack_pc (k : Stack) : (setDataStack k s).pc = s.pc := rfl
@[simp] theorem setDataStack_mem (k : Stack) : (setDataStack k s).mem = s.mem := rfl
@[simp] theorem setDataStack_ds (k : Stack) : (setDataStack k s).ds = k := rfl
@[simp] theorem setDataStack_cs (k : Stack) : (setDataStack k s).cs = s.cs := rfl
@[simp] theorem setDataStack_out (k : Stack) : (setDataStack k s).out = s.out := rfl
@[simp] theorem setDataStack_status (k : Stack) : (setDataStack k s).status = s.status := rfl
@[simp] theorem setDataStack_prog (k : Stack) : (setDataStack k s).prog = s.prog := rfl

/-! ### `emit` -/

@[simp] theorem emit_regs (v : Word) : (emit v s).regs = s.regs := rfl
@[simp] theorem emit_flags (v : Word) : (emit v s).flags = s.flags := rfl
@[simp] theorem emit_pc (v : Word) : (emit v s).pc = s.pc := rfl
@[simp] theorem emit_mem (v : Word) : (emit v s).mem = s.mem := rfl
@[simp] theorem emit_ds (v : Word) : (emit v s).ds = s.ds := rfl
@[simp] theorem emit_cs (v : Word) : (emit v s).cs = s.cs := rfl
@[simp] theorem emit_out (v : Word) : (emit v s).out = s.out ++ [v] := rfl
@[simp] theorem emit_status (v : Word) : (emit v s).status = s.status := rfl
@[simp] theorem emit_prog (v : Word) : (emit v s).prog = s.prog := rfl

/-! ### `raise` -/

@[simp] theorem raise_regs (k : FaultKind) : (raise k s).regs = s.regs := rfl
@[simp] theorem raise_flags (k : FaultKind) : (raise k s).flags = s.flags := rfl
@[simp] theorem raise_pc (k : FaultKind) : (raise k s).pc = s.pc := rfl
@[simp] theorem raise_mem (k : FaultKind) : (raise k s).mem = s.mem := rfl
@[simp] theorem raise_ds (k : FaultKind) : (raise k s).ds = s.ds := rfl
@[simp] theorem raise_cs (k : FaultKind) : (raise k s).cs = s.cs := rfl
@[simp] theorem raise_out (k : FaultKind) : (raise k s).out = s.out := rfl
@[simp] theorem raise_status (k : FaultKind) : (raise k s).status = .faulted k := rfl
@[simp] theorem raise_prog (k : FaultKind) : (raise k s).prog = s.prog := rfl

/-! ### `halt` -/

@[simp] theorem halt_regs (h : Halt) : (halt h s).regs = s.regs := rfl
@[simp] theorem halt_flags (h : Halt) : (halt h s).flags = s.flags := rfl
@[simp] theorem halt_pc (h : Halt) : (halt h s).pc = s.pc := rfl
@[simp] theorem halt_mem (h : Halt) : (halt h s).mem = s.mem := rfl
@[simp] theorem halt_ds (h : Halt) : (halt h s).ds = s.ds := rfl
@[simp] theorem halt_cs (h : Halt) : (halt h s).cs = s.cs := rfl
@[simp] theorem halt_out (h : Halt) : (halt h s).out = s.out := rfl
@[simp] theorem halt_status (h : Halt) : (halt h s).status = .halted h := rfl
@[simp] theorem halt_prog (h : Halt) : (halt h s).prog = s.prog := rfl

/-! ### `complete` -/

@[simp] theorem complete_regs (w : Nat) (v : Word) : (complete w v s).regs = s.regs := rfl
@[simp] theorem complete_flags (w : Nat) (v : Word) : (complete w v s).flags = flagsUpdate v s.flags := rfl
@[simp] theorem complete_pc (w : Nat) (v : Word) : (complete w v s).pc = s.pc + w := rfl
@[simp] theorem complete_mem (w : Nat) (v : Word) : (complete w v s).mem = s.mem := rfl
@[simp] theorem complete_ds (w : Nat) (v : Word) : (complete w v s).ds = s.ds := rfl
@[simp] theorem complete_cs (w : Nat) (v : Word) : (complete w v s).cs = s.cs := rfl
@[simp] theorem complete_out (w : Nat) (v : Word) : (complete w v s).out = s.out := rfl
@[simp] theorem complete_status (w : Nat) (v : Word) : (complete w v s).status = s.status := rfl
@[simp] theorem complete_prog (w : Nat) (v : Word) : (complete w v s).prog = s.prog := rfl

/-! ### Reading a register -/

theorem readReg_eq_of_regs {s t : State} (h : t.regs = s.regs) (r : RegIndex) :
    readReg r t = readReg r s := by
  simp [readReg, h]

@[simp] theorem readReg_writeReg_same (r : RegIndex) (v : Word) :
    readReg r (writeReg r v s) = v := by
  simp [readReg]

theorem readReg_writeReg_other (r q : RegIndex) (v : Word) (h : q ≠ r) :
    readReg q (writeReg r v s) = readReg q s := by
  have hne : (r : Nat) ≠ q := fun e => h (Fin.ext e.symm)
  simp [readReg, hne]

/-! ### Reading a memory cell -/

theorem memCell_eq_of_mem {s t : State} (h : t.mem = s.mem) (a : Nat) :
    memCell a t = memCell a s := by
  simp [memCell, h]

@[simp] theorem readReg_storeCell (a : Nat) (v : Word) (q : RegIndex) : readReg q (storeCell a v s) = readReg q s := rfl
@[simp] theorem readReg_setDataStack (k : Stack) (q : RegIndex) : readReg q (setDataStack k s) = readReg q s := rfl
@[simp] theorem readReg_emit (v : Word) (q : RegIndex) : readReg q (emit v s) = readReg q s := rfl
@[simp] theorem readReg_raise (k : FaultKind) (q : RegIndex) : readReg q (raise k s) = readReg q s := rfl
@[simp] theorem readReg_halt (h : Halt) (q : RegIndex) : readReg q (halt h s) = readReg q s := rfl
@[simp] theorem readReg_complete (w : Nat) (v : Word) (q : RegIndex) : readReg q (complete w v s) = readReg q s := rfl

@[simp] theorem memCell_writeReg (r : RegIndex) (v : Word) (b : Nat) : memCell b (writeReg r v s) = memCell b s := rfl
@[simp] theorem memCell_setDataStack (k : Stack) (b : Nat) : memCell b (setDataStack k s) = memCell b s := rfl
@[simp] theorem memCell_emit (v : Word) (b : Nat) : memCell b (emit v s) = memCell b s := rfl
@[simp] theorem memCell_raise (k : FaultKind) (b : Nat) : memCell b (raise k s) = memCell b s := rfl
@[simp] theorem memCell_halt (h : Halt) (b : Nat) : memCell b (halt h s) = memCell b s := rfl
@[simp] theorem memCell_complete (w : Nat) (v : Word) (b : Nat) : memCell b (complete w v s) = memCell b s := rfl

/-! ### The flag unit and the stacks -/

@[simp] theorem flagsUpdate_z (v : Word) (f : FlagBank) : (flagsUpdate v f).z = zeroFlag v := rfl
@[simp] theorem flagsUpdate_s (v : Word) (f : FlagBank) : (flagsUpdate v f).s = signFlag v := rfl
@[simp] theorem flagsUpdate_c (v : Word) (f : FlagBank) : (flagsUpdate v f).c = f.c := rfl
@[simp] theorem flagsUpdate_u (v : Word) (f : FlagBank) : (flagsUpdate v f).u = f.u := rfl

@[simp] theorem push_cells (v : Word) (k : Stack) :
    (push v k).cells = writeCell k.sp v k.cells := rfl
@[simp] theorem push_sp (v : Word) (k : Stack) : (push v k).sp = pushPointer k.cap k.sp := rfl
@[simp] theorem push_cap (v : Word) (k : Stack) : (push v k).cap = k.cap := rfl
@[simp] theorem pop_value (k : Stack) :
    (pop k).1 = readCell (popPointer k.cap k.sp) k.cells := rfl
@[simp] theorem pop_cells (k : Stack) : (pop k).2.cells = k.cells := rfl
@[simp] theorem pop_sp (k : Stack) : (pop k).2.sp = popPointer k.cap k.sp := rfl
@[simp] theorem pop_cap (k : Stack) : (pop k).2.cap = k.cap := rfl

end Sys2Proof.Machine
end

