-- ==== Sys2Proof/Laws/Operands.lean ====
section
/-! SUPPORT. What each operand form does, said once: a register operand that names a register, or
what it raises; an address operand in bounds, or what it raises. -/

namespace Sys2Proof.Machine

/-- The outcome of an instruction. -/
abbrev Out := Host.Outcome State Fault Refusal

/-! ### Register operands -/

theorem toNat_of_names {r : Word} {k : RegIndex} (h : Names r k) : r.toNat = k.val := by
  have hk := k.isLt
  have hb := r.isLt
  have hi := BitVec.toInt_eq_toNat_cond r
  simp only [Names] at h
  split at hi <;> omega

theorem not_invalid_of_names {r : Word} {k : RegIndex} (h : Names r k) : ¬ InvalidRegister r := by
  have hk := k.isLt
  simp only [Names] at h
  simp only [InvalidRegister, not_or]
  omega

/-- Every operand value is one of three: outside `[0, 8]`, equal to 8, or the index of a register. -/
theorem operand_cases (r : Word) :
    InvalidRegister r ∨ (¬ InvalidRegister r ∧ r = 8#32) ∨ ∃ k, Names r k := by
  by_cases hi : InvalidRegister r
  · exact .inl hi
  · have h := BitVec.toInt_eq_toNat_cond r
    have hb := r.isLt
    have hr : 0 ≤ r.toInt ∧ r.toInt ≤ 8 := by
      simp only [InvalidRegister, not_or] at hi
      omega
    by_cases h8 : r.toInt = 8
    · refine .inr (.inl ⟨hi, BitVec.eq_of_toInt_eq ?_⟩)
      rw [h8]
      rfl
    · refine .inr (.inr ⟨⟨r.toNat, ?_⟩, ?_⟩)
      · split at h <;> omega
      · simp only [Names]
        split at h <;> omega

theorem withReg_names {r : Word} {k : RegIndex} (h : Names r k) (s : State)
    (f : RegIndex → Out) : withReg r s f = f k := by
  have hk : (⟨r.toNat, toNat_of_names h ▸ k.isLt⟩ : RegIndex) = k := Fin.ext (toNat_of_names h)
  rw [withReg, if_neg (not_invalid_of_names h), dif_pos (toNat_of_names h ▸ k.isLt), hk]

theorem withReg_invalid {r : Word} (h : InvalidRegister r) (s : State) (f : RegIndex → Out) :
    withReg r s f = .next (raise (.invalidRegister r) s) := by
  rw [withReg, if_pos h]

theorem eight_not_invalid : ¬ InvalidRegister 8#32 := by decide

theorem withReg_eight (s : State) (f : RegIndex → Out) :
    withReg 8#32 s f = .next (raise (.registerOutOfRange 8#32) s) := by
  rw [withReg, if_neg eight_not_invalid, dif_neg (by decide)]

/-- All that `withReg` can do when it answers with a next state. -/
theorem withReg_cases {r : Word} {s t : State} {f : RegIndex → Out}
    (h : withReg r s f = .next t) :
    (InvalidRegister r ∧ t = raise (.invalidRegister r) s) ∨
    (r = 8#32 ∧ t = raise (.registerOutOfRange r) s) ∨
    ∃ k, Names r k ∧ f k = .next t := by
  rcases operand_cases r with hi | ⟨-, rfl⟩ | ⟨k, hk⟩
  · rw [withReg_invalid hi] at h
    exact .inl ⟨hi, (Host.Outcome.next.inj h).symm⟩
  · rw [withReg_eight] at h
    exact .inr (.inl ⟨rfl, (Host.Outcome.next.inj h).symm⟩)
  · rw [withReg_names hk] at h
    exact .inr (.inr ⟨k, hk, h⟩)

theorem withTwoRegs_names {r₁ r₂ : Word} {a b : RegIndex} (h₁ : Names r₁ a) (h₂ : Names r₂ b)
    (s : State) (f : RegIndex → RegIndex → Out) : withTwoRegs r₁ r₂ s f = f a b := by
  rw [withTwoRegs, if_neg (not_invalid_of_names h₁), if_neg (not_invalid_of_names h₂),
    withReg_names h₁, withReg_names h₂]

/-- All that `withTwoRegs` can do when it answers with a next state. -/
theorem withTwoRegs_cases {r₁ r₂ : Word} {s t : State} {f : RegIndex → RegIndex → Out}
    (h : withTwoRegs r₁ r₂ s f = .next t) :
    (∃ r ∈ [r₁, r₂], InvalidRegister r ∧ t = raise (.invalidRegister r) s) ∨
    (∃ r ∈ [r₁, r₂], r = 8#32 ∧ t = raise (.registerOutOfRange r) s) ∨
    ∃ a b, Names r₁ a ∧ Names r₂ b ∧ f a b = .next t := by
  unfold withTwoRegs at h
  split at h
  next h₁ => exact .inl ⟨r₁, by simp, h₁, (Host.Outcome.next.inj h).symm⟩
  split at h
  next h₂ => exact .inl ⟨r₂, by simp, h₂, (Host.Outcome.next.inj h).symm⟩
  rcases withReg_cases h with ⟨h₁, -⟩ | ⟨h8, ht⟩ | ⟨a, ha, h⟩
  · contradiction
  · exact .inr (.inl ⟨r₁, by simp, h8, ht⟩)
  rcases withReg_cases h with ⟨h₂, -⟩ | ⟨h8, ht⟩ | ⟨b, hb, h⟩
  · contradiction
  · exact .inr (.inl ⟨r₂, by simp, h8, ht⟩)
  · exact .inr (.inr ⟨a, b, ha, hb, h⟩)

/-! ### Address operands -/

theorem memIndex_ok {addr : Word} {s : State} (h : NamesCell s.mem.capacity addr) :
    memIndex addr s = .ok addr.toInt.toNat := by
  simp only [NamesCell] at h
  rw [memIndex, if_neg (by omega)]

theorem memIndex_error {addr : Word} {s : State} (h : ¬ NamesCell s.mem.capacity addr) :
    memIndex addr s = .error (.illegalAddress addr s.mem.capacity) := by
  simp only [NamesCell] at h
  rw [memIndex, if_pos (by omega)]

theorem withMemRead_ok {addr : Word} {s : State} (h : NamesCell s.mem.capacity addr)
    (f : Word → Out) : withMemRead addr s f = f (memCell addr.toInt.toNat s) := by
  simp only [withMemRead, memRead, memIndex_ok h]

theorem withMemRead_error {addr : Word} {s : State} (h : ¬ NamesCell s.mem.capacity addr)
    (f : Word → Out) :
    withMemRead addr s f = .next (raise (.illegalAddress addr s.mem.capacity) s) := by
  simp only [withMemRead, memRead, memIndex_error h]

theorem withMemWrite_ok {addr : Word} {s : State} (h : NamesCell s.mem.capacity addr) (v : Word)
    (f : State → Out) : withMemWrite addr v s f = f (storeCell addr.toInt.toNat v s) := by
  simp only [withMemWrite, memWrite, memIndex_ok h]

theorem withMemWrite_error {addr : Word} {s : State} (h : ¬ NamesCell s.mem.capacity addr)
    (v : Word) (f : State → Out) :
    withMemWrite addr v s f = .next (raise (.illegalAddress addr s.mem.capacity) s) := by
  simp only [withMemWrite, memWrite, memIndex_error h]

end Sys2Proof.Machine
end

