-- ==== Sys2Proof/Laws/Exec.lean ====
section
/-! SUPPORT. What an instruction can do, said once: it completes with its own effect, it halts the
run, or it raises one of its own faults. -/

namespace Sys2Proof.Machine

/-! ### Each arm as its shared operation -/

variable (s : State)

theorem exec_out (r : Word) : exec (.out r) s =
    withReg r s fun k => .next (complete 2 (readReg k s) (emit (readReg k s) s)) := rfl

theorem exec_hlt : exec .hlt s = .next (halt .hlt s) := rfl

theorem exec_mov (rs rd : Word) : exec (.mov rs rd) s =
    withTwoRegs rs rd s fun a b =>
      .next (complete 3 (readReg a s) (writeReg b (readReg a s) s)) := rfl

theorem exec_ldm (r addr : Word) : exec (.ldm r addr) s =
    withReg r s fun k =>
      withMemRead addr s fun v => .next (complete 3 v (writeReg k v s)) := rfl

theorem exec_ldi (r literal : Word) : exec (.ldi r literal) s =
    withReg r s fun k => .next (complete 3 literal (writeReg k literal s)) := rfl

theorem exec_stv (r addr : Word) : exec (.stv r addr) s =
    withReg r s fun k =>
      withMemWrite addr (readReg k s) s fun t => .next (complete 3 0#32 t) := rfl

theorem exec_pop (r : Word) : exec (.pop r) s =
    withReg r s fun k =>
      .next (complete 2 (pop s.ds).1 (writeReg k (pop s.ds).1 (setDataStack (pop s.ds).2 s))) :=
  rfl

theorem exec_psh (r : Word) : exec (.psh r) s =
    withReg r s fun k =>
      .next (complete 2 (readReg k s) (setDataStack (push (readReg k s) s.ds) s)) := rfl

theorem exec_adm (r addr : Word) : exec (.adm r addr) s =
    withReg r s fun k =>
      withMemRead addr s fun v =>
        .next (complete 3 (readReg k (addReg k v s)) (addReg k v s)) := rfl

/-! ### What an instruction can do -/

/-- `Effect i s w v u`: the instruction `i` completes in `s`; its width is `w`, its result `v`, and
`u` is the state after its effect (steps 5 and 6), before the program counter and the flags
follow. -/
inductive Effect : Instr → State → Nat → Word → State → Prop where
  | out {r k s} (h : Names r k) : Effect (.out r) s 2 (readReg k s) (emit (readReg k s) s)
  | mov {rs rd a b s} (ha : Names rs a) (hb : Names rd b) :
      Effect (.mov rs rd) s 3 (readReg a s) (writeReg b (readReg a s) s)
  | ldm {r k addr s} (h : Names r k) (hc : NamesCell s.mem.capacity addr) :
      Effect (.ldm r addr) s 3 (memCell addr.toInt.toNat s)
        (writeReg k (memCell addr.toInt.toNat s) s)
  | ldi {r k literal s} (h : Names r k) :
      Effect (.ldi r literal) s 3 literal (writeReg k literal s)
  | stv {r k addr s} (h : Names r k) (hc : NamesCell s.mem.capacity addr) :
      Effect (.stv r addr) s 3 0#32 (storeCell addr.toInt.toNat (readReg k s) s)
  | pop {r k s} (h : Names r k) :
      Effect (.pop r) s 2 (pop s.ds).1 (writeReg k (pop s.ds).1 (setDataStack (pop s.ds).2 s))
  | psh {r k s} (h : Names r k) :
      Effect (.psh r) s 2 (readReg k s) (setDataStack (push (readReg k s) s.ds) s)
  | adm {r k addr s} (h : Names r k) (hc : NamesCell s.mem.capacity addr) :
      Effect (.adm r addr) s 3 (aluAdd (readReg k s) (memCell addr.toInt.toNat s))
        (writeReg k (aluAdd (readReg k s) (memCell addr.toInt.toNat s)) s)

/-- An instruction that has its effect completes: the program counter and the flags follow. -/
theorem exec_of_effect {i : Instr} {s u : State} {w : Nat} {v : Word} (h : Effect i s w v u) :
    exec i s = .next (complete w v u) := by
  cases h with
  | out h => rw [exec_out, withReg_names h]
  | mov ha hb => rw [exec_mov, withTwoRegs_names ha hb]
  | ldm h hc => rw [exec_ldm, withReg_names h, withMemRead_ok hc]
  | ldi h => rw [exec_ldi, withReg_names h]
  | stv h hc => rw [exec_stv, withReg_names h, withMemWrite_ok hc]
  | pop h => rw [exec_pop, withReg_names h]
  | psh h => rw [exec_psh, withReg_names h]
  | adm h hc =>
    rw [exec_adm, withReg_names h, withMemRead_ok hc]
    simp only [addReg, readReg_writeReg_same]

/-- The width of an instruction that completes is the length of its encoding. -/
theorem effect_width {i : Instr} {s u : State} {w : Nat} {v : Word} (h : Effect i s w v u) :
    w = (encode i).length := by
  cases h <;> rfl

/-- What no effect touches: the program counter, the flags, the run status, the program, the call
stack and the capacities. -/
theorem effect_keeps {i : Instr} {s u : State} {w : Nat} {v : Word} (h : Effect i s w v u) :
    u.pc = s.pc ∧ u.flags = s.flags ∧ u.status = s.status ∧ u.prog = s.prog ∧ u.cs = s.cs ∧
    u.mem.capacity = s.mem.capacity ∧ u.ds.cap = s.ds.cap := by
  cases h <;> exact ⟨rfl, rfl, rfl, rfl, rfl, rfl, rfl⟩

/-- An instruction that completes advances as every such instruction does. -/
theorem advances_of_effect {i : Instr} {s u : State} {w : Nat} {v : Word}
    (h : Effect i s w v u) : Advances w v s (complete w v u) := by
  obtain ⟨hpc, hfl, hst, hpr, hcs, -⟩ := effect_keeps h
  refine ⟨?_, ⟨?_, ?_, ?_, ?_⟩, ?_, ?_, ?_⟩ <;>
    simp [hpc, hfl, hst, hpr, hcs, zeroFlag, signFlag]

/-- An address operand that names no cell is one that `MayRaise` allows a fault for. -/
theorem mayRaise_address {i : Instr} {addr : Word} {cap : Nat} (h : ¬ NamesCell cap addr)
    (hm : addr ∈ i.addressOperands) : MayRaise i cap (.illegalAddress addr cap) := by
  simp only [NamesCell] at h
  exact ⟨hm, rfl, by omega⟩

/-- ALL that an instruction can do when it answers with a next state. -/
theorem exec_cases {i : Instr} {s t : State} (h : exec i s = .next t) :
    (∃ k, MayRaise i s.mem.capacity k ∧ t = raise k s) ∨
    (i = .hlt ∧ t = halt .hlt s) ∨
    ∃ w v u, Effect i s w v u ∧ t = complete w v u := by
  -- a register operand of an instruction with one of them
  have one : ∀ {r : Word} {f : RegIndex → Out}, r ∈ i.registerOperands →
      withReg r s f = .next t →
      (∃ k, MayRaise i s.mem.capacity k ∧ t = raise k s) ∨ ∃ k, Names r k ∧ f k = .next t := by
    intro r f hr hw
    rcases withReg_cases hw with ⟨hi, ht⟩ | ⟨h8, ht⟩ | hk
    · exact .inl ⟨.invalidRegister r, ⟨hr, hi⟩, ht⟩
    · exact .inl ⟨.registerOutOfRange r, ⟨hr, h8⟩, ht⟩
    · exact .inr hk
  -- the end of an instruction that has its effect
  have h₀ := h
  have done : ∀ {w : Nat} {v : Word} {u : State}, Effect i s w v u →
      (∃ k, MayRaise i s.mem.capacity k ∧ t = raise k s) ∨ (i = .hlt ∧ t = halt .hlt s) ∨
      ∃ w v u, Effect i s w v u ∧ t = complete w v u := by
    intro w v u he
    rw [exec_of_effect he] at h₀
    exact .inr (.inr ⟨w, v, u, he, (Host.Outcome.next.inj h₀).symm⟩)
  cases i with
  | hlt => exact .inr (.inl ⟨rfl, (Host.Outcome.next.inj h).symm⟩)
  | out r =>
    rw [exec_out] at h
    rcases one (by simp) h with hf | ⟨k, hk, -⟩
    exacts [.inl hf, done (.out hk)]
  | ldi r x =>
    rw [exec_ldi] at h
    rcases one (by simp) h with hf | ⟨k, hk, -⟩
    exacts [.inl hf, done (.ldi hk)]
  | pop r =>
    rw [exec_pop] at h
    rcases one (by simp) h with hf | ⟨k, hk, -⟩
    exacts [.inl hf, done (.pop hk)]
  | psh r =>
    rw [exec_psh] at h
    rcases one (by simp) h with hf | ⟨k, hk, -⟩
    exacts [.inl hf, done (.psh hk)]
  | mov rs rd =>
    rw [exec_mov] at h
    rcases withTwoRegs_cases h with ⟨r, hr, hi, ht⟩ | ⟨r, hr, h8, ht⟩ | ⟨a, b, ha, hb, -⟩
    · exact .inl ⟨.invalidRegister r, ⟨hr, hi⟩, ht⟩
    · exact .inl ⟨.registerOutOfRange r, ⟨hr, h8⟩, ht⟩
    · exact done (.mov ha hb)
  | ldm r x =>
    rw [exec_ldm] at h
    rcases one (by simp) h with hf | ⟨k, hk, h'⟩
    · exact .inl hf
    by_cases hc : NamesCell s.mem.capacity x
    · exact done (.ldm hk hc)
    · rw [withMemRead_error hc] at h'
      exact .inl ⟨_, mayRaise_address hc (by simp), (Host.Outcome.next.inj h').symm⟩
  | stv r x =>
    rw [exec_stv] at h
    rcases one (by simp) h with hf | ⟨k, hk, h'⟩
    · exact .inl hf
    by_cases hc : NamesCell s.mem.capacity x
    · exact done (.stv hk hc)
    · rw [withMemWrite_error hc] at h'
      exact .inl ⟨_, mayRaise_address hc (by simp), (Host.Outcome.next.inj h').symm⟩
  | adm r x =>
    rw [exec_adm] at h
    rcases one (by simp) h with hf | ⟨k, hk, h'⟩
    · exact .inl hf
    by_cases hc : NamesCell s.mem.capacity x
    · exact done (.adm hk hc)
    · rw [withMemRead_error hc] at h'
      exact .inl ⟨_, mayRaise_address hc (by simp), (Host.Outcome.next.inj h').symm⟩

/-- No instruction ends in a fault or a refusal of the host's interface: each answers with a next
state in every state. -/
theorem exec_answers_next (i : Instr) (s : State) : ∃ t, exec i s = .next t := by
  have reg : ∀ (r : Word) (f : RegIndex → Out), (∀ k, ∃ t, f k = .next t) →
      ∃ t, withReg r s f = .next t := by
    intro r f hf
    rcases operand_cases r with hi | ⟨-, rfl⟩ | ⟨k, hk⟩
    · exact ⟨_, withReg_invalid hi s f⟩
    · exact ⟨_, withReg_eight s f⟩
    · rw [withReg_names hk]
      exact hf k
  have rd : ∀ (x : Word) (f : Word → Out), (∀ v, ∃ t, f v = .next t) →
      ∃ t, withMemRead x s f = .next t := by
    intro x f hf
    by_cases hc : NamesCell s.mem.capacity x
    · rw [withMemRead_ok hc]
      exact hf _
    · exact ⟨_, withMemRead_error hc f⟩
  cases i with
  | out r => rw [exec_out]; exact reg r _ fun k => ⟨_, rfl⟩
  | hlt => exact ⟨_, exec_hlt s⟩
  | mov rs rd =>
    rw [exec_mov, withTwoRegs]
    split
    · exact ⟨_, rfl⟩
    split
    · exact ⟨_, rfl⟩
    exact reg rs _ fun a => reg rd _ fun b => ⟨_, rfl⟩
  | ldm r x => rw [exec_ldm]; exact reg r _ fun k => rd x _ fun v => ⟨_, rfl⟩
  | ldi r x => rw [exec_ldi]; exact reg r _ fun k => ⟨_, rfl⟩
  | stv r x =>
    rw [exec_stv]
    refine reg r _ fun k => ?_
    by_cases hc : NamesCell s.mem.capacity x
    · exact ⟨_, withMemWrite_ok hc _ _⟩
    · exact ⟨_, withMemWrite_error hc _ _⟩
  | pop r => rw [exec_pop]; exact reg r _ fun k => ⟨_, rfl⟩
  | psh r => rw [exec_psh]; exact reg r _ fun k => ⟨_, rfl⟩
  | adm r x => rw [exec_adm]; exact reg r _ fun k => rd x _ fun v => ⟨_, rfl⟩

end Sys2Proof.Machine
end

