-- ==== Sys2Proof/Laws/PerInstr.lean ====
section
/-! SUPPORT. Facts about every instruction as syntax, one lemma per constructor. -/

namespace Sys2Proof.Laws.EncodedWidth

/-- The encoding of an instruction has its opcode's width, and starts with its opcode (rules R64,
R78). -/
def Statement (i : Instr) : Prop :=
  (encode i).length = i.opcode.width ∧ (encode i).head? = some i.opcode.value

theorem out (r : Word) : Statement (.out r) := ⟨rfl, rfl⟩
theorem hlt : Statement .hlt := ⟨rfl, rfl⟩
theorem mov (rs rd : Word) : Statement (.mov rs rd) := ⟨rfl, rfl⟩
theorem ldm (r addr : Word) : Statement (.ldm r addr) := ⟨rfl, rfl⟩
theorem ldi (r literal : Word) : Statement (.ldi r literal) := ⟨rfl, rfl⟩
theorem stv (r addr : Word) : Statement (.stv r addr) := ⟨rfl, rfl⟩
theorem pop (r : Word) : Statement (.pop r) := ⟨rfl, rfl⟩
theorem psh (r : Word) : Statement (.psh r) := ⟨rfl, rfl⟩
theorem adm (r addr : Word) : Statement (.adm r addr) := ⟨rfl, rfl⟩

end Sys2Proof.Laws.EncodedWidth
end

