-- ==== Sys2Proof/Laws/Step.lean ====
section
/-! SUPPORT. What a step can do, said once. -/

namespace Sys2Proof.Machine

/-- A running machine in bounds whose fetch finds an instruction runs it. -/
theorem step_of_fetch {s : State} {i : Instr} {rest : List Word} (hc : s.Configured)
    (hr : s.status = .running) (hf : fetch s = .ok (i, rest)) : step s = exec i s := by
  simp only [step, if_pos hc, hr, hf]

/-- A running machine in bounds whose fetch finds no instruction ends the run. -/
theorem step_of_fetch_error {s : State} {e : DecodeError} (hc : s.Configured)
    (hr : s.status = .running) (hf : fetch s = .error e) : step s = .next (fetchFailed e s) := by
  simp only [step, if_pos hc, hr, hf]

theorem step_of_halted {s : State} {h : Halt} (hc : s.Configured) (hs : s.status = .halted h) :
    step s = .fault (.runHalted h) := by
  simp only [step, if_pos hc, hs]

theorem step_of_faulted {s : State} {k : FaultKind} (hc : s.Configured)
    (hs : s.status = .faulted k) : step s = .fault (.runFaulted k) := by
  simp only [step, if_pos hc, hs]

theorem step_of_not_configured {s : State} (hc : ¬ s.Configured) :
    step s = .refused .configurationOutOfBounds := by
  simp only [step, if_neg hc]

/-- ALL that a step with a next state can be: the end of a run at a fetch that finds no
instruction, or the instruction that the fetch finds. -/
theorem step_cases {s t : State} (h : step s = .next t) :
    s.Configured ∧ s.status = .running ∧
    ((∃ e, fetch s = .error e ∧ t = fetchFailed e s) ∨
      ∃ i rest, fetch s = .ok (i, rest) ∧ exec i s = .next t) := by
  by_cases hc : s.Configured
  · cases hs : s.status with
    | halted x => exact nomatch (step_of_halted hc hs).symm.trans h
    | faulted k => exact nomatch (step_of_faulted hc hs).symm.trans h
    | running =>
      refine ⟨hc, rfl, ?_⟩
      cases hf : fetch s with
      | error e =>
        rw [step_of_fetch_error hc hs hf] at h
        exact .inl ⟨e, rfl, (Host.Outcome.next.inj h).symm⟩
      | ok p =>
        obtain ⟨i, rest⟩ := p
        rw [step_of_fetch hc hs hf] at h
        exact .inr ⟨i, rest, rfl, h⟩
  · exact nomatch (step_of_not_configured hc).symm.trans h

end Sys2Proof.Machine
end

