-- ==== Sys2Proof/Tests/Slice0.lean ====
section
/-! SUPPORT. Tests: words decoded by hand from the tables of spec/30_encoding.md, steps with the
results of spec/95_test_vectors.md, the checks of WellFormed, and for each statement with
hypotheses a state and operands that meet them. -/

namespace Sys2Proof.Tests

open Sys2Proof Sys2Proof.Machine

/-! ### WellFormed refuses what each check is for -/

theorem test_register_eight_is_ill_formed : ¬ (Instr.out 8#32).WellFormed := by decide
theorem test_register_nine_is_ill_formed : ¬ (Instr.ldi 9#32 0#32).WellFormed := by decide
theorem test_negative_register_is_ill_formed : ¬ (Instr.psh (-1#32)).WellFormed := by decide
theorem test_second_register_is_checked : ¬ (Instr.mov 0#32 8#32).WellFormed := by decide
theorem test_first_register_is_checked : ¬ (Instr.mov 8#32 0#32).WellFormed := by decide
theorem test_literal_is_not_checked : (Instr.ldi 7#32 (-1#32)).WellFormed := by decide
theorem test_address_at_capacity_is_refused :
    ¬ (Instr.ldm 0#32 65536#32).AddressesIn 65536 := by decide
theorem test_negative_address_is_refused : ¬ (Instr.stv 0#32 (-1#32)).AddressesIn 65536 := by
  decide
theorem test_last_address_is_accepted : (Instr.adm 0#32 65535#32).AddressesIn 65536 := by decide

/-! ### Decoding: elements written out from the table of 30_encoding.md section 2 -/

theorem test_decode_out : decodeTableWord 64 0x0000000500000000 = some (.out 5#32) := by decide
theorem test_decode_hlt : decodeTableWord 32 1 = some .hlt := by decide
/-- Source first, then destination (rule R68). -/
theorem test_decode_mov :
    decodeTableWord 96 0x000000010000000300000002 = some (.mov 3#32 1#32) := by decide
theorem test_decode_ldm :
    decodeTableWord 96 0x0000FFFF0000000200000003 = some (.ldm 2#32 65535#32) := by decide
theorem test_decode_ldi_negative_literal :
    decodeTableWord 96 0xFFFFFFF90000000000000004 = some (.ldi 0#32 (-7#32)) := by decide
theorem test_decode_stv :
    decodeTableWord 96 0x0000000A0000000100000005 = some (.stv 1#32 10#32) := by decide
theorem test_decode_pop : decodeTableWord 64 0x0000000400000006 = some (.pop 4#32) := by decide
theorem test_decode_psh : decodeTableWord 64 0x0000000300000007 = some (.psh 3#32) := by decide
theorem test_decode_adm :
    decodeTableWord 96 0x000000000000000700000008 = some (.adm 7#32 0#32) := by decide
/-- Bits above the given ones are 0: operand elements of zeros. -/
theorem test_decode_short_word : decodeTableWord 32 0xFFFFFFFF00000005 = some (.stv 0#32 0#32) := by
  decide
theorem test_decode_nine : decodeTableWord 32 9 = none := by decide
/-- All 32 bits are matched (rule R67). -/
theorem test_decode_high_bit : decodeTableWord 32 0x80000001 = none := by decide
/-- The operands of an instruction are data (rule R76). -/
theorem test_decode_operands_are_data :
    decode [4#32, 1#32, 1#32, 1#32] = .ok (.ldi 1#32 1#32, [1#32]) := by rfl
theorem test_encode_mov : encode (.mov 9#32 8#32) = [2#32, 9#32, 8#32] := by decide
theorem test_mnemonics_of_the_table :
    opcodeTable.map Opcode.mnemonic =
      ["OUT", "HLT", "MOV", "LDM", "LDI", "STV", "POP", "PSH", "ADM"] := by decide
theorem test_widths_of_the_table : opcodeTable.map Opcode.width = [2, 1, 3, 3, 3, 3, 2, 2, 3] := by
  decide
theorem test_first_and_last_letters : registerLetter 0 = "A" ∧ registerLetter 7 = "H" := by decide

/-! ### One step from small states; the results are those of 95_test_vectors.md section 2 -/

/-- The reset state of small memories with a program. -/
def small (prog : List Word) : State :=
  State.construct { memSize := 16, stackSize := 4, callStackSize := 2 } prog

/-- The next state of the machine, if it has one. -/
def after (s : State) : Option State :=
  match step s with
  | .next t => some t
  | .fault _ => none
  | .refused _ => none

/-- The status after one step. -/
def statusAfter (s : State) : Option Status := (after s).map State.status

/-- `Z` and `S` after one step. -/
def flagsAfter (s : State) : Option (Word × Word) := (after s).map fun t => (t.flags.z, t.flags.s)

theorem test_out_negative :
    (after (writeReg 3 (-1#32) (small [0#32, 3#32]))).map (fun t => (t.out, t.pc)) =
      some ([-1#32], 2) := by decide
theorem test_out_zero_sets_z : flagsAfter (small [0#32, 0#32]) = some (1#32, 0#32) := by decide
theorem test_hlt_keeps_pc_and_flags :
    (after (small [1#32, 99#32, -4#32])).map (fun t => (t.status, t.pc, t.flags.z)) =
      some (.halted .hlt, 0, 0#32) := by decide
theorem test_mov_source_first :
    (after (writeReg 0 (-3#32) (writeReg 1 8#32 (small [2#32, 0#32, 1#32])))).map
      (fun t => (readReg 0 t, readReg 1 t)) = some (-3#32, -3#32) := by decide
theorem test_mov_same_register :
    (after (writeReg 4 6#32 (small [2#32, 4#32, 4#32]))).map (fun t => (readReg 4 t, t.pc)) =
      some (6#32, 3) := by decide
theorem test_ldi_least_value :
    (after (small [4#32, 7#32, 0x80000000#32])).map (fun t => (readReg 7 t, t.flags.s)) =
      some (0x80000000#32, 1#32) := by decide
theorem test_ldi_zero_sets_z :
    flagsAfter (writeReg 2 9#32 (small [4#32, 2#32, 0#32])) = some (1#32, 0#32) := by decide
theorem test_ldm_loads :
    (after (storeCell 7 (-40#32) (writeReg 1 3#32 (small [3#32, 1#32, 7#32])))).map
      (fun t => (readReg 1 t, t.flags.s)) = some (-40#32, 1#32) := by decide
theorem test_ldm_never_written :
    (after (small [3#32, 0#32, 15#32])).map (fun t => (readReg 0 t, t.flags.z)) =
      some (0#32, 1#32) := by decide
/-- The flags of a store are those of 0, whatever is stored. -/
theorem test_stv_flags_of_zero :
    (after (writeReg 0 (-5#32) (small [5#32, 0#32, 0#32]))).map
      (fun t => (memCell 0 t, t.flags.z, t.flags.s)) = some (-5#32, 1#32, 0#32) := by decide
theorem test_stv_at_capacity_changes_nothing :
    after (writeReg 0 5#32 (small [5#32, 0#32, 16#32])) =
      some (raise (.illegalAddress 16#32 16) (writeReg 0 5#32 (small [5#32, 0#32, 16#32]))) := by
  decide
/-- Underflow wraps to the last cell and raises nothing (rule R55). -/
theorem test_pop_underflow :
    (after (small [6#32, 0#32])).map (fun t => (t.ds.sp, readReg 0 t, t.flags.z, t.status)) =
      some (3, 0#32, 1#32, .running) := by decide
theorem test_pop_reads_below_the_pointer :
    (after (setDataStack { cap := 4, cells := [(0, 77#32)], sp := 1 } (small [6#32, 2#32]))).map
      (fun t => (readReg 2 t, t.ds.sp, t.pc)) = some (77#32, 0, 2) := by decide
theorem test_psh_advances :
    (after (writeReg 0 9#32 (small [7#32, 0#32]))).map (fun t => (t.ds.cells, t.ds.sp)) =
      some ([(0, 9#32)], 1) := by decide
/-- The push threshold is one less than the capacity (rule R50, conflict C1). -/
theorem test_psh_wraps_below_the_last_cell :
    (after (setDataStack { cap := 4, cells := [], sp := 2 }
      (writeReg 0 30#32 (small [7#32, 0#32])))).map (fun t => (t.ds.cells, t.ds.sp)) =
      some ([(2, 30#32)], 0) := by decide
theorem test_adm_wraps :
    (after (storeCell 10 0x7FFFFFFF#32 (writeReg 1 1#32 (small [8#32, 1#32, 10#32])))).map
      (fun t => (readReg 1 t, t.flags.z, t.flags.s)) = some (0x80000000#32, 0#32, 1#32) := by decide
theorem test_adm_least_twice :
    (after (storeCell 4 0x80000000#32 (writeReg 2 0x80000000#32 (small [8#32, 2#32, 4#32])))).map
      (fun t => (readReg 2 t, t.flags.z)) = some (0#32, 1#32) := by decide

/-! ### Fault order: 95_test_vectors.md section 2.6 -/

theorem test_illegal_opcode : statusAfter (small [9#32]) = some (.faulted (.illegalOpcode 0 9#32)) := by
  decide
theorem test_length_before_register :
    statusAfter (small [4#32, 9#32]) = some (.faulted (.unfinishedInstruction 0)) := by decide
theorem test_register_before_address :
    statusAfter (small [3#32, 9#32, 70000#32]) = some (.faulted (.invalidRegister 9#32)) := by decide
theorem test_register_eight_before_address :
    statusAfter (small [3#32, 8#32, 70000#32]) = some (.faulted (.registerOutOfRange 8#32)) := by
  decide
theorem test_mov_invalid_before_out_of_range :
    statusAfter (small [2#32, 8#32, 9#32]) = some (.faulted (.invalidRegister 9#32)) := by decide
theorem test_mov_first_operand_first :
    statusAfter (small [2#32, 9#32, 10#32]) = some (.faulted (.invalidRegister 9#32)) := by decide
theorem test_negative_address :
    statusAfter (small [8#32, 0#32, -1#32]) = some (.faulted (.illegalAddress (-1#32) 16)) := by
  decide
theorem test_empty_program : statusAfter State.reset = some (.halted .endOfBuffer) := by decide
theorem test_halted_run_takes_no_step : after (halt .hlt (small [4#32, 0#32, 1#32])) = none := by
  decide
/-- The placed word is the first instruction after reset. -/
theorem test_placed_word_runs :
    (after (State.reset.withFetchWord 96 0x000001230000000700000004)).map (readReg 7) =
      some 291#32 := by decide

/-! ### Small stacks: 95_test_vectors.md section 2.4, the table of capacities -/

/-- The stack with capacity `cap` after pushing 11, 22, 33, and what three pops give. -/
def threeAndThree (cap : Nat) : List Word × Cells × Nat :=
  let k := (popMany 3 (pushAll [11#32, 22#32, 33#32] { cap := cap, cells := [], sp := 0 }))
  (k.1, k.2.cells, k.2.sp)

theorem test_stack_of_one : threeAndThree 1 = ([33#32, 33#32, 33#32], [(0, 33#32)], 0) := by decide
theorem test_stack_of_two : threeAndThree 2 = ([0#32, 33#32, 0#32], [(0, 33#32)], 1) := by decide
theorem test_stack_of_three :
    threeAndThree 3 = ([33#32, 0#32, 22#32], [(0, 33#32), (1, 22#32)], 1) := by decide

/-! ### The alu: 45_arithmetic_adm.md, the table of overflow and the unreachable operators -/

theorem test_add_least_and_minus_one : aluAdd 0x80000000#32 (-1#32) = 0x7FFFFFFF#32 := by decide
theorem test_add_greatest_twice : aluAdd 0x7FFFFFFF#32 0x7FFFFFFF#32 = -2#32 := by decide
theorem test_div_truncates_toward_zero :
    alu .div (-7#32) 2#32 = some (-3#32) ∧ alu .div 7#32 (-2#32) = some (-3#32) := by decide
theorem test_div_corner_and_zero :
    alu .div 0x80000000#32 (-1#32) = some 0x80000000#32 ∧ alu .div 5#32 0#32 = none := by decide

/-! ### Memory and reset -/

theorem test_write_of_zero_removes_the_entry :
    (storeCell 3 0#32 (storeCell 3 5#32 (small []))).mem.cells = [] := by decide
theorem test_cells_are_sorted :
    (storeCell 1 7#32 (storeCell 9 5#32 (storeCell 4 6#32 (small [])))).mem.cells =
      [(1, 7#32), (4, 6#32), (9, 5#32)] := by decide
theorem test_reset_flags : State.reset.flags = { z := 0#32, c := 0#32, s := 0#32, u := 0#32 } := by
  decide
theorem test_reset_memory_is_canonical : State.reset.mem.wf := by decide

/-! ### What meets the hypotheses of the statements

Each theorem is named after its statement; where a statement has several clauses, each clause has
its own case, at a boundary value. -/

theorem witness_StepRunsTheDecodedInstruction :
    (small [1#32, 7#32]).Configured ∧ (small [1#32, 7#32]).status = .running ∧
      (small [1#32, 7#32]).prog.drop (small [1#32, 7#32]).pc = encode .hlt ++ [7#32] := by decide

theorem witness_PlacedWordRunsNext :
    decodeTableWord 32 4 = some (.ldi 0#32 0#32) ∧
      (State.reset.withFetchWord 32 4).Configured := by decide

theorem witness_StepHaltsAtTheEndOfTheBuffer :
    State.reset.Configured ∧ State.reset.status = .running ∧
      State.reset.prog.length ≤ State.reset.pc := by decide

theorem witness_UnrecognisedOpcodeFaults :
    ∀ op ∈ [9#32, -1#32], (small [op]).Configured ∧ (small [op]).status = .running ∧
      (small [op]).prog[(small [op]).pc]? = some op ∧ (op.toInt < 0 ∨ 8 < op.toInt) := by
  intro op hop
  fin_cases hop <;> decide

/-- One case for each operand count, truncated by one element. -/
theorem witness_TruncatedInstructionIsUnfinished :
    ∀ p ∈ [([1#32], 0), ([0#32], 1), ([7#32], 1), ([2#32, 9#32], 2), ([8#32, 0#32], 2)],
      (small p.1).Configured ∧ (small p.1).status = .running ∧
      ∃ op, (small p.1).prog[(small p.1).pc]? = some op ∧
        ((op = 1#32 ∧ p.2 = 0) ∨ (op ∈ [0#32, 6#32, 7#32] ∧ p.2 = 1) ∨
          (op ∈ [2#32, 3#32, 4#32, 5#32, 8#32] ∧ p.2 = 2)) := by
  intro p hp
  fin_cases hp
  · exact ⟨by decide, by decide, 1#32, by decide⟩
  · exact ⟨by decide, by decide, 0#32, by decide⟩
  · exact ⟨by decide, by decide, 7#32, by decide⟩
  · exact ⟨by decide, by decide, 2#32, by decide⟩
  · exact ⟨by decide, by decide, 8#32, by decide⟩

theorem witness_OnlyRunningStatesHaveASuccessor :
    State.reset.Configured ∧ State.reset.status = .running ∧
      (halt .hlt State.reset).Configured ∧ (halt .hlt State.reset).status ≠ .running := by decide

theorem witness_FaultedRunIsTerminal :
    (raise (.registerOutOfRange 8#32) State.reset).status =
      .faulted (.registerOutOfRange 8#32) := rfl

theorem witness_ResetMeetsTheRunInvariant :
    ({ memSize := 1, stackSize := 1, callStackSize := 1, memInit := [(0, 5#32)] } : Config).Ok ∧
      Config.defaults.Ok ∧ ([1#32] : List Word).length ≤ maxInt32 := by decide

/-- The invariant holds in a state whose step has a next state. -/
theorem witness_EveryStepKeepsTheRunInvariant :
    (small [4#32, 0#32, 5#32]).Inv ∧ ∃ t, step (small [4#32, 0#32, 5#32]) = .next t :=
  ⟨⟨by decide, by decide, by decide, by decide, by decide,
    ⟨.inl rfl, .inl rfl, by decide, rfl, rfl⟩, trivial⟩, _, rfl⟩

/-- A step with a next state: the hypothesis of the whole-machine statements about `C`, `U`, the
call stack, the program and the output. -/
theorem witness_step_has_a_next_state : ∃ t, step (small [0#32, 7#32]) = .next t := ⟨_, rfl⟩

/-- A width of two, a width of three, and a step that leaves the run. -/
theorem witness_ProgramCounterAdvancesByTheWidth :
    (∃ t, step (small [7#32, 0#32]) = .next t ∧ t.status = .running) ∧
    (∃ t, step (small [4#32, 0#32, 1#32]) = .next t ∧ t.status = .running) ∧
    ∃ t, step (small [1#32]) = .next t ∧ t.status ≠ .running :=
  ⟨⟨_, rfl, rfl⟩, ⟨_, rfl, rfl⟩, _, rfl, by decide⟩

theorem witness_FaultingStepChangesOnlyTheStatus :
    ∃ t, step (small [3#32, 0#32, 16#32]) = .next t ∧
      t.status = .faulted (.illegalAddress 16#32 16) := ⟨_, rfl, rfl⟩

/-- One case for each fault kind an instruction may raise. -/
theorem witness_InstructionsRaiseOnlyTheirOwnFaults :
    (small []).status = .running ∧
    (∃ t, exec (.mov 0#32 9#32) (small []) = .next t ∧
      t.status = .faulted (.invalidRegister 9#32)) ∧
    (∃ t, exec (.pop 8#32) (small []) = .next t ∧
      t.status = .faulted (.registerOutOfRange 8#32)) ∧
    ∃ t, exec (.stv 0#32 (-1#32)) (small []) = .next t ∧
      t.status = .faulted (.illegalAddress (-1#32) 16) :=
  ⟨rfl, ⟨_, rfl, rfl⟩, ⟨_, rfl, rfl⟩, _, rfl, rfl⟩

theorem witness_MemoryIsWrittenOnlyByStv :
    ∃ t, step (writeReg 0 5#32 (small [5#32, 0#32, 15#32])) = .next t ∧
      memCell 15 t ≠ memCell 15 (writeReg 0 5#32 (small [5#32, 0#32, 15#32])) :=
  ⟨_, rfl, by decide⟩

/-- A `POP` that moves the pointer, and a `PSH` that writes a cell. -/
theorem witness_DataStackIsReachedOnlyByPushAndPop :
    (∃ t, step (small [6#32, 0#32]) = .next t ∧ t.ds ≠ (small [6#32, 0#32]).ds) ∧
    ∃ t, step (writeReg 0 5#32 (small [7#32, 0#32])) = .next t ∧
      readCell 0 t.ds.cells ≠ readCell 0 (writeReg 0 5#32 (small [7#32, 0#32])).ds.cells :=
  ⟨⟨_, rfl, by decide⟩, _, rfl, by decide⟩

/-- A change by `MOV` and one by another instruction. -/
theorem witness_RegistersChangeOnlyAsDestinations :
    (∃ t, step (writeReg 0 5#32 (small [2#32, 0#32, 7#32])) = .next t ∧
      readReg 7 t ≠ readReg 7 (writeReg 0 5#32 (small [2#32, 0#32, 7#32]))) ∧
    ∃ t, step (small [4#32, 0#32, 5#32]) = .next t ∧
      readReg 0 t ≠ readReg 0 (small [4#32, 0#32, 5#32]) :=
  ⟨⟨_, rfl, by decide⟩, _, rfl, by decide⟩

/-- An instruction that completes, and `HLT`. -/
theorem witness_FlagsFollowTheReportedResult :
    (small []).status = .running ∧
    (∃ t, exec (.ldi 7#32 (-1#32)) (small []) = .next t ∧ t.status = .running) ∧
    ∃ t, exec .hlt (small []) = .next t := ⟨rfl, ⟨_, rfl, rfl⟩, _, rfl⟩

/-- One operand on each side of every bound, for one register and for two. -/
theorem witness_RegisterOperandsAreValidated :
    (∀ r ∈ [-1#32, 9#32], r.toInt < 0 ∨ 8 < r.toInt) ∧ (8#32 : Word).toInt = 8 ∧
    (0 ≤ (8#32 : Word).toInt ∧ (8#32 : Word).toInt ≤ 8) ∧
    (0 ≤ (0#32 : Word).toInt ∧ (0#32 : Word).toInt ≤ 8) ∧
    (0 ≤ (7#32 : Word).toInt ∧ (7#32 : Word).toInt ≤ 7) := by
  refine ⟨?_, by decide⟩
  intro r hr
  fin_cases hr <;> decide

/-- The two sides of the bound. -/
theorem witness_AddressesOutOfBoundsFault :
    Names 7#32 7 ∧ ∀ a ∈ [-1#32, 16#32], a.toInt < 0 ∨ ((small []).mem.capacity : Int) ≤ a.toInt := by
  refine ⟨by decide, ?_⟩
  intro a ha
  fin_cases ha <;> decide

/-- Both clauses of both primitives, at the bounds. -/
theorem witness_MemReadChecksAndReads :
    (∀ a ∈ [-1#32, 16#32], a.toInt < 0 ∨ ((small []).mem.capacity : Int) ≤ a.toInt) ∧
    ∀ a ∈ [0#32, 15#32], 0 ≤ a.toInt ∧ a.toInt < ((small []).mem.capacity : Int) := by
  constructor <;> intro a ha <;> fin_cases ha <;> decide

theorem witness_MemWriteChecksAndWrites :
    (∀ a ∈ [-1#32, 16#32], a.toInt < 0 ∨ ((small []).mem.capacity : Int) ≤ a.toInt) ∧
    ∀ a ∈ [0#32, 15#32], 0 ≤ a.toInt ∧ a.toInt < ((small []).mem.capacity : Int) := by
  constructor <;> intro a ha <;> fin_cases ha <;> decide

/-- A stack of four cells with the pointer at `sp`. -/
def fourAt (sp : Nat) : Stack := { cap := 4, cells := [(3, 9#32)], sp := sp }

theorem witness_PopRetreatsThenReads : 1 ≤ (fourAt 0).cap := by decide

/-- Capacities one and two, and a pop that reaches the last cell. -/
theorem witness_StackPointerStaysInRange :
    (∃ k : Stack, k.sp < k.cap ∧ k.cap = 1) ∧ (∃ k : Stack, k.sp < k.cap ∧ 2 ≤ k.cap) ∧
    (fourAt 0).sp < (fourAt 0).cap ∧ (pop (fourAt 0)).2.sp + 1 = (fourAt 0).cap :=
  ⟨⟨{ cap := 1, cells := [], sp := 0 }, by decide⟩, ⟨{ cap := 2, cells := [], sp := 1 }, by decide⟩,
    by decide⟩

/-- A push that wraps, and one on each side of it. -/
theorem witness_PushThenPopRestoresUnlessItWraps :
    ((fourAt 2).sp < (fourAt 2).cap ∧ ((fourAt 2).sp : Int) = ((fourAt 2).cap : Int) - 2) ∧
    ∀ sp ∈ [1, 3], (fourAt sp).sp < (fourAt sp).cap ∧
      ((fourAt sp).sp : Int) ≠ ((fourAt sp).cap : Int) - 2 := by decide

theorem witness_ConsecutivePushesCycleBelowTheLastCell :
    (fourAt 0).sp = 0 ∧ 3 ≤ (fourAt 0).cap ∧
      ([1#32, 2#32, 3#32] : List Word).length ≤ (fourAt 0).cap - 1 ∧
      ([1#32, 2#32, 3#32] : List Word)[2]? = some 3#32 := by decide

theorem witness_PushedValuesPopInReverse :
    (fourAt 0).sp = 0 ∧ ([1#32, 2#32] : List Word).length + 2 ≤ (fourAt 0).cap := by decide

/-- One pair of operands for each clause, at its bound. -/
theorem witness_AdditionOverflowsBySign :
    (0 < (0x7FFFFFFF#32 : Word).toInt ∧ 0 < (1#32 : Word).toInt ∧
      2147483647 < (0x7FFFFFFF#32 : Word).toInt + (1#32 : Word).toInt) ∧
    ((0x80000000#32 : Word).toInt < 0 ∧ (-1#32 : Word).toInt < 0 ∧
      (0x80000000#32 : Word).toInt + (-1#32 : Word).toInt < -2147483648) ∧
    ((0x80000000#32 : Word).toInt ≤ 0 ∧ 0 ≤ (0x7FFFFFFF#32 : Word).toInt) ∧
    (0 ≤ (5#32 : Word).toInt ∧ (0#32 : Word).toInt ≤ 0) ∧
    (-2147483648 ≤ (0x7FFFFFFE#32 : Word).toInt + (1#32 : Word).toInt ∧
      (0x7FFFFFFE#32 : Word).toInt + (1#32 : Word).toInt ≤ 2147483647) := by decide

/-- The corner, and a quotient that is not exact. -/
theorem witness_UnreachableOperatorsWrapAndTruncate :
    ((-1#32 : Word).toInt ≠ 0 ∧ (0x80000000#32 : Word).toInt = -2147483648 ∧
      (-1#32 : Word).toInt = -1) ∧
    ((2#32 : Word).toInt ≠ 0 ∧ ¬ ((-7#32 : Word).toInt = -2147483648 ∧ (2#32 : Word).toInt = -1)) := by
  decide

/-- The first and the last register: the operands of `OutEmitsTheRegister`,
`LdiLoadsTheLiteral` and `PshStoresOnTheStack`, and of `MovCopiesTheSource` with both. -/
theorem witness_register_operands : Names 0#32 0 ∧ Names 7#32 7 := by decide

/-- The hypotheses of the second clause and of the third of `HltEndsTheRunAndNothingElse`. -/
theorem witness_HltEndsTheRunAndNothingElse :
    ((small [1#32, 99#32]).Configured ∧ (small [1#32, 99#32]).status = .running ∧
      (small [1#32, 99#32]).prog[(small [1#32, 99#32]).pc]? = some 1#32) ∧
    ∃ t, exec .hlt (small []) = .next t ∧ t.status = .halted .hlt := ⟨by decide, _, rfl, rfl⟩

/-- The hypotheses of `LdmLoadsTheCell`, `StvStoresTheRegister`, `AdmAddsTheCell` and
`StoreThenLoadReturnsTheValue`, at both ends of the memory. -/
theorem witness_register_and_address :
    Names 0#32 0 ∧ Names 7#32 7 ∧
    ∀ a ∈ [0#32, 15#32], 0 ≤ a.toInt ∧ a.toInt < ((small []).mem.capacity : Int) := by
  refine ⟨by decide, by decide, ?_⟩
  intro a ha
  fin_cases ha <;> decide

theorem witness_PopLoadsTheStackCell : Names 7#32 7 ∧ 1 ≤ (small []).ds.cap := by decide

theorem witness_PushThenPopReturnsTheValue :
    Names 0#32 0 ∧ Names 7#32 7 ∧ (small []).ds.sp < (small []).ds.cap ∧
      ((small []).ds.sp : Int) ≠ ((small []).ds.cap : Int) - 2 := by decide

theorem witness_EveryRunEndsWithinItsBound :
    (small [0#32, 0#32, 9#32]).Configured ∧
      (small [0#32, 0#32, 9#32]).pc ≤ (small [0#32, 0#32, 9#32]).prog.length ∧
      Config.defaults.Ok := by decide

/-- A buffer whose elements behind its `HLT` are no instruction. -/
theorem witness_LoadableProgramsRunToSuccess :
    Config.defaults.Ok ∧ [1#32, 99#32].length ≤ maxInt32 ∧
    MeetsLoadersDuty Config.defaults.memSize [1#32, 99#32] [.hlt] [99#32] := by
  refine ⟨by decide, by decide, rfl, fun i hi => ?_, .inl (by decide)⟩
  fin_cases hi
  decide

/-- A buffer with no `HLT`, at the highest register and the last cell. -/
theorem witness_LoadableProgramsRunToSuccess_toTheEnd :
    MeetsLoadersDuty 65536 [4#32, 7#32, -7#32, 5#32, 7#32, 65535#32]
      [.ldi 7#32 (-7#32), .stv 7#32 65535#32] [] := by
  refine ⟨rfl, fun i hi => ?_, .inr rfl⟩
  fin_cases hi <;> decide

theorem witness_SuccessfulRunsMetTheLoadersDuty :
    ∃ t, run Config.defaults [1#32, 99#32] = some (.success, t) := ⟨_, rfl⟩

end Sys2Proof.Tests
end

section
/-! Engine construction, read through the accessors of the register file and the flag bank
(`10_state.md` section 7, rule R34). -/

namespace Sys2Proof.Machine

@[simp] theorem readReg_construct (c : Config) (prog : List Word) (r : RegIndex) :
    readReg r (State.construct c prog) = 0#32 :=
  Vector.getElem_replicate r.isLt

@[simp] theorem flagCell_construct (c : Config) (prog : List Word) (k : Fin 4) :
    flagCell k (State.construct c prog).flags = 0#32 :=
  match k with
  | 0 | 1 | 2 | 3 => rfl

/-- Settles O12: `State.reset` is the construction from the default configuration, so both halves
are the two lemmas on construction. -/
theorem resetClearsRegistersAndFlags : Obligations.ResetClearsRegistersAndFlags :=
  ⟨fun c prog r k => ⟨readReg_construct c prog r, flagCell_construct c prog k⟩,
    fun r k => ⟨readReg_construct Config.defaults [] r, flagCell_construct Config.defaults [] k⟩⟩

end Sys2Proof.Machine
end

section
/-! The memory and stack primitives (`20_memory.md` rules R43, R44, R50, R51): what each answers,
and its new pointer as the spec's integer formula. -/

namespace Sys2Proof.Machine

/-! ### The data memory -/

/-- A write replaces the contents of the data memory and no other part of the state. -/
theorem storeCell_with_mem (a : Nat) (v : Word) (s : State) :
    { storeCell a v s with mem := s.mem } = s := rfl

/-- A write leaves `MEM_SIZE` and every other cell alone. -/
theorem keepsMemBut_storeCell (a : Nat) (v : Word) (s : State) :
    KeepsMemBut a s (storeCell a v s) :=
  ⟨rfl, fun _ hb => memCell_storeCell_other hb v s⟩

section
variable {addr : Word} {s : State}

theorem memRead_ok (h : NamesCell s.mem.capacity addr) :
    memRead addr s = .ok (memCell addr.toInt.toNat s) := by
  simp only [memRead, memIndex_ok h]

theorem memRead_error (h : ¬ NamesCell s.mem.capacity addr) :
    memRead addr s = .error (.illegalAddress addr s.mem.capacity) := by
  simp only [memRead, memIndex_error h]

theorem memWrite_ok (h : NamesCell s.mem.capacity addr) (v : Word) :
    memWrite addr v s = .ok (storeCell addr.toInt.toNat v s) := by
  simp only [memWrite, memIndex_ok h]

theorem memWrite_error (h : ¬ NamesCell s.mem.capacity addr) (v : Word) :
    memWrite addr v s = .error (.illegalAddress addr s.mem.capacity) := by
  simp only [memWrite, memIndex_error h]

end

/-- The fault condition of rules R43 and R44 is that the operand names no cell. -/
theorem not_namesCell_iff {memSize : Nat} {addr : Word} :
    ¬ NamesCell memSize addr ↔ addr.toInt < 0 ∨ (memSize : Int) ≤ addr.toInt := by
  simp only [NamesCell, not_and_or, not_le, not_lt]

/-- Settles O28: the two clauses are the two answers of the bounds check. -/
theorem memReadChecksAndReads : Obligations.MemReadChecksAndReads :=
  fun _ _ => ⟨fun h => memRead_error (not_namesCell_iff.mpr h), memRead_ok⟩

/-- Settles O29: in bounds the answer is `storeCell` at the address, and what it writes and keeps
is said by the lemmas on `storeCell`. -/
theorem memWriteChecksAndWrites : Obligations.MemWriteChecksAndWrites := by
  intro addr v s
  refine ⟨fun h => memWrite_error (not_namesCell_iff.mpr h) v, fun h => ?_⟩
  exact ⟨_, memWrite_ok h v, memCell_storeCell_same _ v s,
    keepsMemBut_storeCell _ v s, storeCell_with_mem _ v s⟩

/-! ### The stacks -/

/-- The pointer after a push, by the integer formula of rule R50. -/
theorem cast_pushPointer (cap sp : Nat) :
    (pushPointer cap sp : Int) =
      if (sp : Int) + 1 ≥ (cap : Int) - 1 then 0 else (sp : Int) + 1 := by
  unfold pushPointer
  split <;> split <;> omega

/-- The pointer after a pop, by the integer formula of rule R51. A stack with no cell has no
`cap - 1` to fall back to. -/
theorem cast_popPointer {cap : Nat} (hcap : 1 ≤ cap) (sp : Nat) :
    (popPointer cap sp : Int) =
      if (sp : Int) - 1 < 0 then (cap : Int) - 1 else (sp : Int) - 1 := by
  unfold popPointer
  split <;> split <;> omega

/-- Settles O30: the cells of a push are those of one `writeCell` at the old pointer. -/
theorem pushWritesThenAdvances : Obligations.PushWritesThenAdvances :=
  fun v k => ⟨readCell_writeCell_same k.sp v k.cells,
    fun _ hj => readCell_writeCell_other hj v k.cells, push_cap v k, cast_pushPointer k.cap k.sp⟩

/-- Settles O31: a pop moves the pointer and reads at the new one. -/
theorem popRetreatsThenReads : Obligations.PopRetreatsThenReads :=
  fun k hcap => ⟨cast_popPointer hcap k.sp, pop_value k, pop_cells k, pop_cap k⟩

end Sys2Proof.Machine
end

section
/-! The operand-length check (`40_engine_and_blocks.md` rule R95): when a fetch that finds an opcode
wants operands, and that no executing instruction raises this fault. -/

namespace Sys2Proof

/-- An instruction has as many operand elements as its opcode's row says (rules R65, R78). -/
theorem length_operands (i : Instr) : i.operands.length = i.opcode.operandCount := by
  cases i <;> rfl

/-- No two rows have the same opcode element (rule R67). -/
theorem opcode_value_injective : Function.Injective Opcode.value :=
  fun a b h => by simpa using congrArg decodeOpcode h

/-- The opcode table by operand count (rule R66): the elements listed under a count are the opcodes
of rows with that count. -/
theorem exists_opcode_of_operand_count {op : Word} {n : Nat}
    (h : (op = 1#32 ∧ n = 0) ∨ (op ∈ [0#32, 6#32, 7#32] ∧ n = 1) ∨
      (op ∈ [2#32, 3#32, 4#32, 5#32, 8#32] ∧ n = 2)) :
    ∃ o : Opcode, op = o.value ∧ n = o.operandCount := by
  simp only [List.mem_cons, List.not_mem_nil, or_false] at h
  rcases h with ⟨rfl, rfl⟩ | ⟨rfl | rfl | rfl, rfl⟩ | ⟨rfl | rfl | rfl | rfl | rfl, rfl⟩
  exacts [⟨.hlt, rfl, rfl⟩, ⟨.out, rfl, rfl⟩, ⟨.pop, rfl, rfl⟩, ⟨.psh, rfl, rfl⟩,
    ⟨.mov, rfl, rfl⟩, ⟨.ldm, rfl, rfl⟩, ⟨.ldi, rfl, rfl⟩, ⟨.stv, rfl, rfl⟩, ⟨.adm, rfl, rfl⟩]

/-- Behind a recognised opcode the decoder only takes operands. -/
theorem decode_value_cons (o : Opcode) (l : List Word) :
    decode (o.value :: l) = takeOperands o l := by
  simp only [decode, decodeOpcode_value]

/-- The check counts elements and looks at none of them. -/
theorem takeOperands_eq_unfinished_iff {o : Opcode} {l : List Word} :
    takeOperands o l = .error .unfinishedInstruction ↔ l.length < o.operandCount := by
  refine ⟨fun h => (takeOperands_error h).2, fun hlt => ?_⟩
  cases h : takeOperands o l with
  | error e => rw [(takeOperands_error h).1]
  | ok p =>
    obtain ⟨rfl, rfl⟩ := takeOperands_ok.mp h
    rw [List.length_append, length_operands] at hlt
    omega

namespace Machine

/-- A fetch that finds an opcode wants operands exactly when the buffer ends before the last one. -/
theorem fetch_eq_unfinished_iff {s : State} {o : Opcode} (h : s.prog[s.pc]? = some o.value) :
    fetch s = .error .unfinishedInstruction ↔ s.prog.length ≤ s.pc + o.operandCount := by
  obtain ⟨hlt, hget⟩ := List.getElem?_eq_some_iff.mp h
  rw [fetch, fetchElements, List.drop_eq_getElem_cons hlt, hget, decode_value_cons,
    takeOperands_eq_unfinished_iff, List.length_drop]
  omega

/-- The fault of the length check is not one an executing instruction raises. -/
theorem exec_status_ne_unfinished {i : Instr} {s t : State} (hr : s.status = .running)
    (h : exec i s = .next t) (position : Nat) :
    t.status ≠ .faulted (.unfinishedInstruction position) := by
  rcases exec_cases h with ⟨k, hk, rfl⟩ | ⟨-, rfl⟩ | ⟨w, v, u, he, rfl⟩
  · rintro ⟨⟩
    exact hk
  · simp
  · obtain ⟨-, -, hst, -⟩ := effect_keeps he
    simp [hst, hr]

/-- A running machine in bounds raises `UnfinishedInstruction(pc)` exactly when its fetch wants
operands. -/
theorem step_raises_unfinished_iff {s : State} (hc : s.Configured) (hr : s.status = .running) :
    (∃ t, step s = .next t ∧ t.status = .faulted (.unfinishedInstruction s.pc)) ↔
      fetch s = .error .unfinishedInstruction := by
  refine ⟨fun ⟨t, hs, ht⟩ => ?_, fun hf => ⟨_, step_of_fetch_error hc hr hf, rfl⟩⟩
  obtain ⟨-, -, ⟨e, hf, rfl⟩ | ⟨i, rest, -, hx⟩⟩ := step_cases hs
  · cases e with
    | unfinishedInstruction => exact hf
    | endOfBuffer | illegalOpcode _ => cases ht
  · exact absurd ht (exec_status_ne_unfinished hr hx s.pc)

/-- Settles O8: the step raises the fault exactly when the fetch wants operands, which the fetch
decides by the number of elements alone. -/
theorem truncatedInstructionIsUnfinished : Obligations.TruncatedInstructionIsUnfinished := by
  intro s op n hc hr hop hrow
  obtain ⟨o, rfl, rfl⟩ := exists_opcode_of_operand_count hrow
  refine ⟨by omega, ?_, fun hhlt => ?_⟩
  · rw [step_raises_unfinished_iff hc hr, fetch_eq_unfinished_iff hop]
  · obtain rfl : o = .hlt := opcode_value_injective hhlt
    obtain ⟨hlt, -⟩ := List.getElem?_eq_some_iff.mp hop
    exact not_le.mpr hlt

end Machine
end Sys2Proof
end

section
/-! The result of an instruction and the flags (`40_engine_and_blocks.md` rules R100, R101). -/

namespace Sys2Proof.Machine

/-- The result of an effect is the one the table of rule R100 lists for the instruction. -/
theorem reports_of_effect {i : Instr} {s u : State} {w : Nat} {v : Word}
    (h : Effect i s w v u) : Reports i s (complete w v u) v := by
  cases h with
  | out h => exact ⟨_, h, rfl⟩
  | mov ha hb => exact ⟨_, _, ha, hb, by simp, rfl⟩
  | ldm h hc => exact ⟨_, h, by simp, rfl⟩
  | ldi h => exact ⟨_, h, by simp, rfl⟩
  | stv h hc => rfl
  | pop h => exact ⟨_, h, by simp, rfl⟩
  | psh h => exact ⟨_, h, rfl⟩
  | adm h hc => exact ⟨_, h, by simp⟩

/-- A word is negative exactly when its bit 31 is set (rule R101). -/
theorem toInt_neg_iff_bit31 (v : Word) : v.toInt < 0 ↔ v.getLsbD 31 = true := by
  rw [← BitVec.msb_eq_getLsbD_last, BitVec.msb_eq_toInt, decide_eq_true_iff]

section
variable {v : Word} {s t : State} (h : FlagsFrom v s t)
include h

theorem sign_eq_bit31_of_flagsFrom : t.flags.s = if v.getLsbD 31 then 1#32 else 0#32 := by
  obtain ⟨-, hs, -⟩ := h
  simp only [hs, toInt_neg_iff_bit31]

/-- No result is both zero and negative. -/
theorem not_zero_and_sign_of_flagsFrom : ¬ (t.flags.z = 1#32 ∧ t.flags.s = 1#32) := by
  obtain ⟨hz, hs, -⟩ := h
  rw [hz, hs]
  by_cases h0 : v.toInt = 0 <;> simp [h0]

end

/-- An instruction after which the run goes on has completed with its effect. -/
theorem effect_of_exec_running {i : Instr} {s t : State} (h : exec i s = .next t)
    (ht : t.status = .running) : ∃ w v u, Effect i s w v u ∧ t = complete w v u := by
  rcases exec_cases h with ⟨k, -, rfl⟩ | ⟨-, rfl⟩ | he
  · cases ht
  · cases ht
  · exact he

/-- Settles O25: an instruction that completes has its effect, whose result is the reported one and
sets the flags; `HLT` changes the status only. -/
theorem flagsFollowTheReportedResult : Obligations.FlagsFollowTheReportedResult := by
  intro i s t _ h
  refine ⟨fun ht => ?_, ?_⟩
  · obtain ⟨w, v, u, he, rfl⟩ := effect_of_exec_running h ht
    obtain ⟨-, hflags, -⟩ := advances_of_effect he
    exact ⟨v, reports_of_effect he, hflags, sign_eq_bit31_of_flagsFrom hflags,
      not_zero_and_sign_of_flagsFrom hflags⟩
  · rintro rfl
    obtain rfl := Host.Outcome.next.inj h
    exact halt_flags s .hlt

end Sys2Proof.Machine
end

section
/-! A run that is over (`60_exceptions.md` rule R141): the loop stays where no step goes on. -/

namespace Sys2Proof.Machine

/-- Only a running machine has a next state (rule R32). -/
theorem running_of_step_next {s t : State} (h : step s = .next t) : s.status = .running := by
  obtain ⟨-, hr, -⟩ := step_cases h
  exact hr

/-- The loop ends at a state with no next state, whether the step faults or is refused there. -/
theorem runLoop_of_no_next {s : State} (h : ∀ t, step s ≠ .next t) (n : Nat) :
    runLoop n s = s := by
  cases n with
  | zero => rfl
  | succ n =>
    cases hs : step s with
    | next t => exact absurd hs (h t)
    | fault _ | refused _ => simp only [runLoop, hs]

/-- Settles O10: a faulted state is not running, so it has no next state and the loop stays in
it. -/
theorem faultedRunIsTerminal : Obligations.FaultedRunIsTerminal := by
  intro s k hk
  have hno : ∀ t, step s ≠ .next t := fun t h => by
    have hr := running_of_step_next h
    rw [hk] at hr
    cases hr
  exact ⟨hno, fun n => by rw [runLoop_of_no_next hno n, hk]⟩

end Sys2Proof.Machine
end

section
/-! The decoder (`30_encoding.md`): it reads exactly the encodings, and why it reads none. -/

namespace Sys2Proof

@[simp] theorem decode_nil : decode [] = .error .endOfBuffer := rfl

/-- An element that no row has is no opcode, whatever follows it (rule R73). -/
theorem decode_cons_of_decodeOpcode_none {op : Word} (h : decodeOpcode op = none)
    (l : List Word) : decode (op :: l) = .error (.illegalOpcode op) := by
  simp only [decode, h]

/-- The decoder answers with an instruction exactly when its elements stand first. -/
theorem decode_eq_ok_iff {ws rest : List Word} {i : Instr} :
    decode ws = .ok (i, rest) ↔ ws = encode i ++ rest := by
  constructor
  · intro h
    cases ws with
    | nil => cases h
    | cons op l =>
      cases ho : decodeOpcode op with
      | none => cases (decode_cons_of_decodeOpcode_none ho l).symm.trans h
      | some o =>
        obtain rfl := eq_value_of_decodeOpcode ho
        obtain ⟨rfl, rfl⟩ := takeOperands_ok.mp ((decode_value_cons o l).symm.trans h)
        rfl
  · rintro rfl
    exact (decode_value_cons _ _).trans (takeOperands_ok.mpr ⟨rfl, rfl⟩)

/-- Settles O1: the opcode element fixes the row, and the row's operands stand behind it. -/
theorem decodeExactlyInvertsEncode : Obligations.DecodeExactlyInvertsEncode :=
  fun _ _ _ => decode_eq_ok_iff

/-- Settles O2: each sequence is the encoding of its instruction. -/
theorem tableWordsDecode : Obligations.TableWordsDecode := by
  refine ⟨?_, ?_, ?_, ?_, ?_, ?_, ?_, ?_, ?_⟩ <;> exact decode_eq_ok_iff.mpr rfl

/-- The opcode elements are the signed values 0 to 8 (rules R66, R67). -/
theorem exists_opcode_iff {op : Word} :
    (∃ o : Opcode, op = o.value) ↔ 0 ≤ op.toInt ∧ op.toInt ≤ 8 := by
  constructor
  · rintro ⟨o, rfl⟩
    cases o <;> decide
  · rintro ⟨hlow, hhigh⟩
    have hop : op = BitVec.ofInt 32 op.toInt := by simp
    generalize op.toInt = n at hop hlow hhigh
    interval_cases n
    exacts [⟨.out, hop⟩, ⟨.hlt, hop⟩, ⟨.mov, hop⟩, ⟨.ldm, hop⟩, ⟨.ldi, hop⟩, ⟨.stv, hop⟩,
      ⟨.pop, hop⟩, ⟨.psh, hop⟩, ⟨.adm, hop⟩]

theorem decodeOpcode_eq_none_iff {op : Word} :
    decodeOpcode op = none ↔ op.toInt < 0 ∨ 8 < op.toInt := by
  have hnone : decodeOpcode op = none ↔ ¬ ∃ o : Opcode, op = o.value := by
    refine ⟨?_, fun h => Option.eq_none_iff_forall_ne_some.mpr fun o ho =>
      h ⟨o, eq_value_of_decodeOpcode ho⟩⟩
    rintro h ⟨o, rfl⟩
    cases (decodeOpcode_value o).symm.trans h
  rw [hnone, exists_opcode_iff]
  omega

/-- Settles O3: only an element that no row has is rejected as an opcode; behind a recognised one
the decoder fails for want of operands alone. -/
theorem opcodeElementsAreZeroToEight : Obligations.OpcodeElementsAreZeroToEight := by
  intro op rest
  rw [← decodeOpcode_eq_none_iff]
  refine ⟨fun h => ?_, fun h => decode_cons_of_decodeOpcode_none h rest⟩
  cases ho : decodeOpcode op with
  | none => rfl
  | some o =>
    obtain rfl := eq_value_of_decodeOpcode ho
    rw [decode_value_cons] at h
    cases (takeOperands_error h).1

/-- ALL the reasons for which the decoder finds no instruction, and where the elements show each. -/
theorem decode_error_cases {ws : List Word} {e : DecodeError} (h : decode ws = .error e) :
    (e = .endOfBuffer ∧ ws = []) ∨
    (∃ op l, e = .illegalOpcode op ∧ ws = op :: l ∧ (op.toInt < 0 ∨ 8 < op.toInt)) ∨
    ∃ o l, e = .unfinishedInstruction ∧ ws = Opcode.value o :: l ∧ l.length < o.operandCount := by
  cases ws with
  | nil => exact .inl ⟨(Except.error.inj h).symm, rfl⟩
  | cons op l =>
    cases ho : decodeOpcode op with
    | none =>
      rw [decode_cons_of_decodeOpcode_none ho] at h
      exact .inr (.inl ⟨op, l, (Except.error.inj h).symm, rfl, decodeOpcode_eq_none_iff.mp ho⟩)
    | some o =>
      obtain rfl := eq_value_of_decodeOpcode ho
      rw [decode_value_cons] at h
      obtain ⟨he, hl⟩ := takeOperands_error h
      exact .inr (.inr ⟨o, l, he, rfl, hl⟩)

end Sys2Proof
end

section
/-! The step assembled (`40_engine_and_blocks.md` section 3): what it does at each content of the
buffer, where it has a next state, and where it is refused. -/

namespace Sys2Proof.Machine

/-- The fetch finds an instruction exactly when its elements stand at the program counter. -/
theorem fetch_eq_ok_iff {s : State} {i : Instr} {rest : List Word} :
    fetch s = .ok (i, rest) ↔ s.prog.drop s.pc = encode i ++ rest := decode_eq_ok_iff

/-- Settles O4: the decoder reads back the elements that stand at the program counter. -/
theorem stepRunsTheDecodedInstruction : Obligations.StepRunsTheDecodedInstruction :=
  fun _ _ _ hc hr h => step_of_fetch hc hr (fetch_eq_ok_iff.mpr h)

/-- From its start on, a spliced buffer reads the placed elements first. -/
theorem drop_spliceElements (start : Nat) (es prog : List Word) :
    (spliceElements start es prog).drop start = es ++ prog.drop (start + es.length) := by
  have hlen : ((prog ++ List.replicate (start - prog.length) 0#32).take start).length = start := by
    simp only [List.length_take, List.length_append, List.length_replicate]
    omega
  rw [spliceElements, List.append_assoc, List.drop_left' hlen]

theorem decode_of_decodeTableWord {nbits w : Nat} {i : Instr}
    (h : decodeTableWord nbits w = some i) :
    ∃ rest, decode (tableElements nbits w) = .ok (i, rest) := by
  unfold decodeTableWord at h
  split at h
  next j rest hd =>
    obtain rfl := Option.some.inj h
    exact ⟨rest, hd⟩
  next => cases h

/-- Settles O5: the placed elements stand at the program counter, and they start with the encoding
of the instruction. -/
theorem placedWordRunsNext : Obligations.PlacedWordRunsNext := by
  intro s nbits w i h hc
  obtain ⟨rest, hd⟩ := decode_of_decodeTableWord h
  refine step_of_fetch (rest := rest ++ s.prog.drop (s.pc + (tableElements nbits w).length))
    hc rfl (fetch_eq_ok_iff.mpr ?_)
  rw [← List.append_assoc, ← decode_eq_ok_iff.mp hd]
  exact drop_spliceElements s.pc _ s.prog

/-- Settles O6: nothing is left to fetch. -/
theorem stepHaltsAtTheEndOfTheBuffer : Obligations.StepHaltsAtTheEndOfTheBuffer := by
  intro s hc hr hpc
  have hf : fetch s = .error .endOfBuffer := by
    rw [fetch, fetchElements, List.drop_eq_nil_of_le hpc, decode_nil]
  exact step_of_fetch_error hc hr hf

/-- The elements from `pc` on start with the element at `pc`. -/
theorem fetchElements_eq_cons {s : State} {op : Word} (h : s.prog[s.pc]? = some op) :
    fetchElements s = op :: s.prog.drop (s.pc + 1) := by
  obtain ⟨hlt, rfl⟩ := List.getElem?_eq_some_iff.mp h
  exact List.drop_eq_getElem_cons hlt

/-- Settles O7: the element at the program counter is one that no row of the table has. -/
theorem unrecognisedOpcodeFaults : Obligations.UnrecognisedOpcodeFaults := by
  intro s op hc hr hop hbad
  have hf : fetch s = .error (.illegalOpcode op) := by
    rw [fetch, fetchElements_eq_cons hop]
    exact decode_cons_of_decodeOpcode_none (decodeOpcode_eq_none_iff.mpr hbad) _
  exact step_of_fetch_error hc hr hf

/-- A running machine in bounds has a next state (rule R105). -/
theorem step_answers_next {s : State} (hc : s.Configured) (hr : s.status = .running) :
    ∃ t, step s = .next t := by
  cases hf : fetch s with
  | error e => exact ⟨_, step_of_fetch_error hc hr hf⟩
  | ok p =>
    obtain ⟨t, ht⟩ := exec_answers_next p.1 s
    exact ⟨t, (step_of_fetch hc hr hf).trans ht⟩

/-- Settles O9: a running machine in bounds has a next state, and no other machine has one. -/
theorem onlyRunningStatesHaveASuccessor : Obligations.OnlyRunningStatesHaveASuccessor :=
  fun _ hc => ⟨fun ⟨_, h⟩ => running_of_step_next h, step_answers_next hc⟩

/-- A machine in bounds is never refused: it goes on or its run is over. -/
theorem step_ne_refused {s : State} (hc : s.Configured) (r : Refusal) : step s ≠ .refused r := by
  cases hs : s.status with
  | running =>
    obtain ⟨t, ht⟩ := step_answers_next hc hs
    simp [ht]
  | halted h => simp [step_of_halted hc hs]
  | faulted k => simp [step_of_faulted hc hs]

/-- Settles O11: a refusal is the answer to a machine out of bounds, and to no other. -/
theorem stepRefusesExactlyConfigurationsOutOfBounds :
    Obligations.StepRefusesExactlyConfigurationsOutOfBounds := by
  intro s
  have hrefused : (∃ r, step s = .refused r) ↔ ¬ s.Configured :=
    ⟨fun ⟨r, h⟩ hc => step_ne_refused hc r h, fun hc => ⟨_, step_of_not_configured hc⟩⟩
  rw [hrefused]
  simp only [State.Configured, CapacityInBounds, maxInt32]
  omega

end Sys2Proof.Machine
end

section
/-! What each effect reaches (`10_state.md` sections 2, 5 and 6): one lemma for each piece of state
that some instruction writes. -/

namespace Sys2Proof.Machine

/-- A register that a write changes is the one written. -/
theorem eq_of_readReg_writeReg_ne {k q : RegIndex} {v : Word} {s : State}
    (h : readReg q (writeReg k v s) ≠ readReg q s) : q = k :=
  not_imp_comm.mp (readReg_writeReg_other s k q v) h

section
variable {i : Instr} {s u : State} {w : Nat} {v : Word} (h : Effect i s w v u)
include h

/-- Only `OUT` emits, and it emits its register (rule R31). -/
theorem effect_out : u.out = s.out ∨
    ∃ r k, i = .out r ∧ Names r k ∧ u.out = s.out ++ [readReg k s] := by
  cases h with
  | out hk => exact .inr ⟨_, _, rfl, hk, rfl⟩
  | mov | ldm | ldi | stv | pop | psh | adm => exact .inl rfl

/-- Only `STV` writes the data memory, in the cell its address operand names (rule R118). -/
theorem effect_mem : u.mem = s.mem ∨
    ∃ r addr x, i = .stv r addr ∧ NamesCell s.mem.capacity addr ∧
      u.mem = (storeCell addr.toInt.toNat x s).mem := by
  cases h with
  | stv hk hc => exact .inr ⟨_, _, _, rfl, hc, rfl⟩
  | out | mov | ldm | ldi | pop | psh | adm => exact .inl rfl

/-- Only `POP` and `PSH` reach the data stack, each by its primitive (rules R120, R121). -/
theorem effect_ds : u.ds = s.ds ∨ (∃ r, i = .pop r ∧ u.ds = (pop s.ds).2) ∨
    ∃ r x, i = .psh r ∧ u.ds = push x s.ds := by
  cases h with
  | pop => exact .inr (.inl ⟨_, rfl, rfl⟩)
  | psh => exact .inr (.inr ⟨_, _, rfl, rfl⟩)
  | out | mov | ldm | ldi | stv | adm => exact .inl rfl

/-- A register that an effect changes is named by the destination operand: the second of `MOV`, the
first of the others (rule R16). -/
theorem effect_regs {q : RegIndex} (hq : readReg q u ≠ readReg q s) :
    (∃ rs rd, i = .mov rs rd ∧ Names rd q) ∨
    (i.opcode.value ∈ [3#32, 4#32, 6#32, 8#32] ∧ ∃ r, (encode i)[1]? = some r ∧ Names r q) := by
  cases h with
  | out | stv | psh => exact absurd rfl hq
  | mov ha hb =>
    obtain rfl := eq_of_readReg_writeReg_ne hq
    exact .inl ⟨_, _, rfl, hb⟩
  | ldm hk hc =>
    obtain rfl := eq_of_readReg_writeReg_ne hq
    exact .inr ⟨by simp [Instr.opcode, Opcode.value], _, rfl, hk⟩
  | ldi hk =>
    obtain rfl := eq_of_readReg_writeReg_ne hq
    exact .inr ⟨by simp [Instr.opcode, Opcode.value], _, rfl, hk⟩
  | pop hk =>
    obtain rfl := eq_of_readReg_writeReg_ne hq
    exact .inr ⟨by simp [Instr.opcode, Opcode.value], _, rfl, hk⟩
  | adm hk hc =>
    obtain rfl := eq_of_readReg_writeReg_ne hq
    exact .inr ⟨by simp [Instr.opcode, Opcode.value], _, rfl, hk⟩

/-- The widths of the table, 2 or 3 elements by the opcode (rule R66). -/
theorem effect_width_of_opcode :
    (i.opcode.value ∈ [0#32, 6#32, 7#32] ∧ w = 1 + 1) ∨
    (i.opcode.value ∈ [2#32, 3#32, 4#32, 5#32, 8#32] ∧ w = 1 + 2) := by
  cases h with
  | out | pop | psh => exact .inl ⟨by simp [Instr.opcode, Opcode.value], rfl⟩
  | mov | ldm | ldi | stv | adm => exact .inr ⟨by simp [Instr.opcode, Opcode.value], rfl⟩

end
end Sys2Proof.Machine
end

section
/-! The invariant of every run (`10_state.md` section 7, `20_memory.md` section 5): construction
meets it, and every step keeps it. -/

namespace Sys2Proof.Machine

/-- What the fetched elements hold, the buffer holds from the program counter on. -/
theorem prog_of_drop {s : State} {es : List Word} {j : Nat} {a : Word}
    (h : s.prog.drop s.pc = es) (hj : es[j]? = some a) : s.prog[s.pc + j]? = some a := by
  rw [← List.getElem?_drop, h, hj]

/-- Element `j` of the instruction fetched stands `j` places behind the program counter. -/
theorem prog_of_fetch {s : State} {i : Instr} {rest : List Word} {j : Nat} {a : Word}
    (h : fetch s = .ok (i, rest)) (hj : (encode i)[j]? = some a) : s.prog[s.pc + j]? = some a := by
  obtain ⟨hlt, -⟩ := List.getElem?_eq_some_iff.mp hj
  exact prog_of_drop (fetch_eq_ok_iff.mp h) ((List.getElem?_append_left hlt).trans hj)

/-! ### The clause on the run status -/

theorem statusInv_of_running {s : State} (h : s.status = .running) : s.StatusInv := by
  simp only [State.StatusInv, h]

theorem operandCount_le_two (o : Opcode) : o.operandCount ≤ 2 := by
  cases o <;> decide

/-- A fetch that finds no instruction says truly why. -/
theorem fetchFailed_statusInv {s : State} {e : DecodeError} (hpc : s.pc ≤ s.prog.length)
    (h : fetch s = .error e) : (fetchFailed e s).StatusInv := by
  rcases decode_error_cases h with ⟨rfl, hd⟩ | ⟨op, l, rfl, hd, hbad⟩ | ⟨o, l, rfl, hd, -⟩
  · exact le_antisymm hpc (List.drop_eq_nil_iff.mp hd)
  · exact ⟨rfl, prog_of_drop (j := 0) hd rfl, hbad⟩
  · have hop : s.prog[s.pc]? = some o.value := prog_of_drop (j := 0) hd rfl
    obtain ⟨hlt, -⟩ := List.getElem?_eq_some_iff.mp hop
    have hshort := (fetch_eq_unfinished_iff hop).mp h
    have htwo := operandCount_le_two o
    exact ⟨rfl, hlt, by show s.prog.length ≤ s.pc + 2; omega⟩

/-- A fault an instruction may raise says truly what its operand is. -/
theorem raise_statusInv {s : State} {i : Instr} {k : FaultKind}
    (h : MayRaise i s.mem.capacity k) : (raise k s).StatusInv := by
  cases k with
  | illegalOpcode => exact h.elim
  | unfinishedInstruction => exact h.elim
  | invalidRegister id => exact h.2
  | registerOutOfRange id => exact h.2
  | illegalAddress addr m => exact h.2

/-! ### The other clauses -/

/-- No result sets a flag to anything but 0 or 1, nor both (rule R101). -/
theorem flags_inv_of_flagsFrom {v : Word} {s t : State} (h : FlagsFrom v s t)
    (hs : s.flags.Inv) : t.flags.Inv := by
  obtain ⟨-, -, -, hc, hu⟩ := hs
  have hboth := not_zero_and_sign_of_flagsFrom h
  obtain ⟨hz, hsign, hc', hu'⟩ := h
  refine ⟨?_, ?_, hboth, hc'.trans hc, hu'.trans hu⟩
  · rw [hz]; split <;> simp
  · rw [hsign]; split <;> simp

theorem effect_mem_wf {i : Instr} {s u : State} {w : Nat} {v : Word} (h : Effect i s w v u)
    (hs : s.mem.wf) : u.mem.wf := by
  rcases effect_mem h with hm | ⟨r, addr, x, -, hc, hm⟩
  · rwa [hm]
  · rw [hm]
    refine storeCell_mem_wf x hs ?_
    simp only [NamesCell] at hc
    omega

theorem effect_ds_wf {i : Instr} {s u : State} {w : Nat} {v : Word} (h : Effect i s w v u)
    (hs : s.ds.wf) : u.ds.wf := by
  rcases effect_ds h with hd | ⟨r, -, hd⟩ | ⟨r, x, -, hd⟩ <;> rw [hd]
  exacts [hs, pop_wf hs, push_wf x hs]

/-- An instruction that is fetched ends inside the buffer. -/
theorem fetch_width_le {s : State} {i : Instr} {rest : List Word} (hpc : s.pc ≤ s.prog.length)
    (h : fetch s = .ok (i, rest)) : s.pc + (encode i).length ≤ s.prog.length := by
  have hlen := congrArg List.length (fetch_eq_ok_iff.mp h)
  rw [List.length_drop, List.length_append] at hlen
  omega

/-! ### Every step -/

theorem pc_le_of_inv {s : State} (h : s.Inv) : s.pc ≤ s.prog.length := by
  obtain ⟨-, -, -, -, hpc, -⟩ := h
  exact hpc

/-- Ending a run touches no clause but the one on the status. -/
theorem inv_of_status {s : State} {x : Status} (h : s.Inv)
    (hx : { s with status := x }.StatusInv) : { s with status := x }.Inv := by
  obtain ⟨hc, hm, hd, hk, hpc, hf, -⟩ := h
  exact ⟨hc, hm, hd, hk, hpc, hf, hx⟩

/-- An instruction that is fetched and completes keeps the invariant. -/
theorem inv_of_effect {i : Instr} {s u : State} {w : Nat} {v : Word} {rest : List Word}
    (h : s.Inv) (hr : s.status = .running) (hf : fetch s = .ok (i, rest))
    (he : Effect i s w v u) : (complete w v u).Inv := by
  obtain ⟨hc, hm, hd, hk, hpc, hfl, -⟩ := h
  obtain ⟨-, -, -, -, hcs, hmem, hcap⟩ := effect_keeps he
  obtain ⟨hpc', hfl', hst, -, hprog⟩ := advances_of_effect he
  have hm' : u.mem.wf := effect_mem_wf he hm
  have hd' : u.ds.wf := effect_ds_wf he hd
  refine ⟨?_, hm', hd', ?_, ?_, flags_inv_of_flagsFrom hfl' hfl,
    statusInv_of_running (hst.trans hr)⟩
  · simpa only [State.Configured, complete_mem, complete_ds, complete_cs, hmem, hcap, hcs, hprog]
      using hc
  · rwa [complete_cs, hcs]
  · rw [hpc', hprog, effect_width he]
    exact fetch_width_le hpc hf

/-- Settles O15: the end of a run says truly why it ended, and an instruction that completes keeps
each clause by the lemma on that piece of state. -/
theorem everyStepKeepsTheRunInvariant : Obligations.EveryStepKeepsTheRunInvariant := by
  intro s t hinv h
  obtain ⟨-, hr, ⟨e, hf, rfl⟩ | ⟨i, rest, hf, hx⟩⟩ := step_cases h
  · have hst := fetchFailed_statusInv (pc_le_of_inv hinv) hf
    cases e <;> exact inv_of_status hinv hst
  rcases exec_cases hx with ⟨k, hk, rfl⟩ | ⟨rfl, rfl⟩ | ⟨w, v, u, he, rfl⟩
  · exact inv_of_status hinv (raise_statusInv hk)
  · have hop : s.prog[s.pc]? = some 1#32 := prog_of_fetch (j := 0) hf rfl
    exact inv_of_status hinv hop
  · exact inv_of_effect hinv hr hf he

/-! ### Construction -/

theorem construct_configured {c : Config} {prog : List Word} (hc : c.Ok)
    (hlen : prog.length ≤ maxInt32) : (State.construct c prog).Configured := by
  obtain ⟨hm, hd, hk, -⟩ := hc
  exact ⟨hm, hd, hk, hlen⟩

theorem construct_inv {c : Config} {prog : List Word} (hc : c.Ok)
    (hlen : prog.length ≤ maxInt32) : (State.construct c prog).Inv := by
  have hconf := construct_configured hc hlen
  obtain ⟨-, ⟨hd, -⟩, ⟨hk, -⟩, hmwf, hdwf, hkwf⟩ := hc
  exact ⟨hconf, hmwf, ⟨hdwf, hd⟩, ⟨hkwf, hk⟩, Nat.zero_le _,
    ⟨.inl rfl, .inl rfl, fun ⟨hz, _⟩ => absurd hz (by decide : 0#32 ≠ 1#32), rfl, rfl⟩, trivial⟩

/-- Settles O14: `State.reset` is the construction from the default configuration. -/
theorem resetMeetsTheRunInvariant : Obligations.ResetMeetsTheRunInvariant :=
  ⟨construct_inv (by decide) (by decide), fun _ _ hc hlen => construct_inv hc hlen⟩

/-- Settles O13: construction copies its arguments and sets the rest to these values. -/
theorem resetLeavesTheRestAsDecided : Obligations.ResetLeavesTheRestAsDecided :=
  ⟨fun _ _ => ⟨rfl, rfl, rfl, rfl, rfl, rfl, rfl, rfl, rfl, fun _ => ⟨rfl, rfl, rfl⟩⟩,
    rfl, rfl, rfl, rfl, fun _ => ⟨rfl, rfl, rfl⟩⟩

end Sys2Proof.Machine
end

section
/-! The whole-machine rules (`10_state.md`): what a step leaves alone, and which instruction stands
at the program counter where it does not. -/

namespace Sys2Proof.Machine

/-- ALL that a step can do to the rest of the state: it ends the run and changes the status only,
or the instruction fetched completes with its effect. -/
theorem step_ends_or_completes {s t : State} (h : step s = .next t) :
    (∃ x, x ≠ .running ∧ t = { s with status := x }) ∨
    ∃ i rest w v u, fetch s = .ok (i, rest) ∧ Effect i s w v u ∧ t = complete w v u := by
  obtain ⟨-, -, ⟨e, -, rfl⟩ | ⟨i, rest, hf, hx⟩⟩ := step_cases h
  · cases e <;> exact .inl ⟨_, by simp, rfl⟩
  rcases exec_cases hx with ⟨k, -, rfl⟩ | ⟨-, rfl⟩ | ⟨w, v, u, he, rfl⟩
  · exact .inl ⟨_, by simp, rfl⟩
  · exact .inl ⟨_, by simp, rfl⟩
  · exact .inr ⟨i, rest, w, v, u, hf, he, rfl⟩

/-- An instruction that completes in a running machine leaves it running. -/
theorem complete_status_running {i : Instr} {s t u : State} {w : Nat} {v : Word}
    (he : Effect i s w v u) (h : step s = .next t) : (complete w v u).status = .running := by
  obtain ⟨-, -, hst, -⟩ := advances_of_effect he
  exact hst.trans (running_of_step_next h)

/-- What every step keeps, the loop keeps. -/
theorem runLoop_keeps {P : State → Prop} (hstep : ∀ s t, P s → step s = .next t → P t) (n : Nat)
    {s : State} (h : P s) : P (runLoop n s) := by
  induction n generalizing s with
  | zero => exact h
  | succ n ih =>
    cases hs : step s with
    | next t => simpa only [runLoop, hs] using ih (hstep s t h hs)
    | fault _ | refused _ => simpa only [runLoop, hs] using h

theorem step_keeps_reserved_flags {s t : State} (h : step s = .next t) :
    t.flags.c = s.flags.c ∧ t.flags.u = s.flags.u := by
  rcases step_ends_or_completes h with ⟨x, -, rfl⟩ | ⟨i, rest, w, v, u, -, he, rfl⟩
  · exact ⟨rfl, rfl⟩
  · obtain ⟨-, ⟨-, -, hc, hu⟩, -⟩ := advances_of_effect he
    exact ⟨hc, hu⟩

/-- Settles O16: no step writes the two cells, so the loop keeps the value of construction. -/
theorem carryAndUnusedFlagsAreNeverWritten : Obligations.CarryAndUnusedFlagsAreNeverWritten := by
  refine ⟨fun s t h => step_keeps_reserved_flags h, fun c prog n => ?_⟩
  refine runLoop_keeps (P := fun s => s.flags.c = 0#32 ∧ s.flags.u = 0#32) ?_ n ⟨rfl, rfl⟩
  rintro s t ⟨hc, hu⟩ h
  obtain ⟨hc', hu'⟩ := step_keeps_reserved_flags h
  exact ⟨hc'.trans hc, hu'.trans hu⟩

/-- Settles O17: no effect reaches them. -/
theorem callStackAndProgramAreInert : Obligations.CallStackAndProgramAreInert := by
  intro s t h
  rcases step_ends_or_completes h with ⟨x, -, rfl⟩ | ⟨i, rest, w, v, u, -, he, rfl⟩
  · exact ⟨rfl, rfl, rfl, rfl⟩
  · obtain ⟨-, -, -, hprog, hcs, hmem, hcap⟩ := effect_keeps he
    exact ⟨hcs, hprog, hmem, hcap⟩

/-- Settles O18: only an instruction that completes goes on, and it advances by its width. -/
theorem programCounterAdvancesByTheWidth : Obligations.ProgramCounterAdvancesByTheWidth := by
  intro s t h
  rcases step_ends_or_completes h with ⟨x, hx, rfl⟩ | ⟨i, rest, w, v, u, hf, he, rfl⟩
  · exact ⟨fun hrun => absurd hrun hx, fun _ => rfl⟩
  · refine ⟨fun _ => ⟨i.opcode.value, prog_of_fetch (j := 0) hf rfl, ?_⟩,
      fun hend => absurd (complete_status_running he h) hend⟩
    obtain ⟨hpc, -⟩ := advances_of_effect he
    rw [hpc]
    rcases effect_width_of_opcode he with ⟨hop, rfl⟩ | ⟨hop, rfl⟩
    exacts [.inl ⟨hop, rfl⟩, .inr ⟨hop, rfl⟩]

/-- Settles O19: an instruction that completes leaves no fault, and all else changes only the
status. -/
theorem faultingStepChangesOnlyTheStatus : Obligations.FaultingStepChangesOnlyTheStatus := by
  intro s t k h hk
  rcases step_ends_or_completes h with ⟨x, -, rfl⟩ | ⟨i, rest, w, v, u, -, he, rfl⟩
  · obtain rfl : x = .faulted k := hk
    rfl
  · cases (complete_status_running he h).symm.trans hk

/-- Settles O20: of all that an instruction can do, only raising one of its own faults leaves a
fault. -/
theorem instructionsRaiseOnlyTheirOwnFaults : Obligations.InstructionsRaiseOnlyTheirOwnFaults := by
  intro i s t k hr h hk
  rcases exec_cases h with ⟨k', hmay, rfl⟩ | ⟨-, rfl⟩ | ⟨w, v, u, he, rfl⟩
  · obtain rfl : k' = k := Status.faulted.inj hk
    exact hmay
  · cases hk
  · obtain ⟨-, -, hst, -⟩ := advances_of_effect he
    cases (hst.trans hr).symm.trans hk

/-- Settles O21: the only effect that reaches the output is that of the `OUT` fetched. -/
theorem outputGrowsOnlyByOut : Obligations.OutputGrowsOnlyByOut := by
  intro s t h
  rcases step_ends_or_completes h with ⟨x, -, rfl⟩ | ⟨i, rest, w, v, u, hf, he, rfl⟩
  · exact .inl rfl
  rcases effect_out he with ho | ⟨r, k, rfl, hk, ho⟩
  · exact .inl ho
  · exact .inr ⟨r, k, prog_of_fetch (j := 0) hf rfl, prog_of_fetch (j := 1) hf rfl, hk, ho⟩

/-- Settles O22: the cell of the store is the one that changed, or it would read as before. -/
theorem memoryIsWrittenOnlyByStv : Obligations.MemoryIsWrittenOnlyByStv := by
  intro s t a h hne
  rcases step_ends_or_completes h with ⟨x, -, rfl⟩ | ⟨i, rest, w, v, u, hf, he, rfl⟩
  · exact absurd rfl hne
  rcases effect_mem he with hm | ⟨r, addr, x, rfl, ⟨hlow, -⟩, hm⟩
  · exact absurd (memCell_eq_of_mem hm a) hne
  · have ha : a = addr.toInt.toNat := by
      by_contra hother
      exact hne ((memCell_eq_of_mem hm a).trans (memCell_storeCell_other hother x s))
    exact ⟨prog_of_fetch (j := 0) hf rfl, addr, prog_of_fetch (j := 2) hf rfl, by omega⟩

/-- Settles O23: a pop moves the pointer only, and a push writes one cell, the one at the old
pointer. -/
theorem dataStackIsReachedOnlyByPushAndPop : Obligations.DataStackIsReachedOnlyByPushAndPop := by
  intro s t h
  rcases step_ends_or_completes h with ⟨x, -, rfl⟩ | ⟨i, rest, w, v, u, hf, he, rfl⟩
  · exact ⟨fun hne => absurd rfl hne, fun a hne => absurd rfl hne⟩
  simp only [complete_ds]
  rcases effect_ds he with hd | ⟨r, rfl, hd⟩ | ⟨r, x, rfl, hd⟩ <;> rw [hd]
  · exact ⟨fun hne => absurd rfl hne, fun a hne => absurd rfl hne⟩
  · exact ⟨fun _ => .inl (prog_of_fetch (j := 0) hf rfl), fun a hne => absurd rfl hne⟩
  · have hop : s.prog[s.pc]? = some 7#32 := prog_of_fetch (j := 0) hf rfl
    refine ⟨fun _ => .inr hop, fun a hne => ⟨hop, ?_⟩⟩
    by_contra hother
    exact hne (readCell_writeCell_other hother x s.ds.cells)

/-- Settles O24: the effect that changed the register is that of the instruction fetched, whose
destination operand names it. -/
theorem registersChangeOnlyAsDestinations : Obligations.RegistersChangeOnlyAsDestinations := by
  intro s t k h hne
  rcases step_ends_or_completes h with ⟨x, -, rfl⟩ | ⟨i, rest, w, v, u, hf, he, rfl⟩
  · exact absurd rfl hne
  rcases effect_regs he hne with ⟨rs, rd, rfl, hk⟩ | ⟨hop, r, hr, hk⟩
  · exact .inl ⟨prog_of_fetch (j := 0) hf rfl, rd, prog_of_fetch (j := 2) hf rfl, hk⟩
  · exact .inr ⟨⟨_, hop, prog_of_fetch (j := 0) hf rfl⟩, r, prog_of_fetch hf hr, hk⟩

/-- Settles O41: `HLT` is the only instruction that does not complete or fault. -/
theorem hltEndsTheRunAndNothingElse : Obligations.HltEndsTheRunAndNothingElse := by
  refine ⟨exec_hlt, fun s hc hr hop => ?_, fun i s t hr h ht => ?_⟩
  · have hf : fetch s = .ok (.hlt, s.prog.drop (s.pc + 1)) :=
      fetch_eq_ok_iff.mpr (fetchElements_eq_cons hop)
    exact step_of_fetch hc hr hf
  · rcases exec_cases h with ⟨k, -, rfl⟩ | ⟨hi, -⟩ | ⟨w, v, u, he, rfl⟩
    · cases ht
    · exact hi
    · obtain ⟨-, -, hst, -⟩ := advances_of_effect he
      cases (hst.trans hr).symm.trans ht

end Sys2Proof.Machine
end

section
/-! Faults of operands (`60_exceptions.md` section 2): which check comes first, and what it
raises. -/

namespace Sys2Proof.Machine

/-- The one value in `[0, 8]` that names no register (rule R134). -/
theorem eq_eight_of_toInt {r : Word} (h : r.toInt = 8) : r = 8#32 := BitVec.eq_of_toInt_eq h

/-- A value in 0 to 7 is the index of a register (rule R69). -/
theorem exists_names_of_namesRegister {r : Word} (h : NamesRegister r) : ∃ k, Names r k := by
  obtain ⟨hlow, hhigh⟩ := h
  rcases operand_cases r with hbad | ⟨-, rfl⟩ | hk
  · simp only [InvalidRegister] at hbad
    omega
  · exact absurd hhigh (by decide)
  · exact hk

/-- An instruction with one register operand first checks it, whatever the rest of it does. -/
theorem exec_eq_withReg (r x : Word) (s : State) :
    ∀ i ∈ [Instr.out r, .ldm r x, .ldi r x, .stv r x, .pop r, .psh r, .adm r x],
      ∃ rest, exec i s = withReg r s rest := by
  simp only [List.forall_mem_cons, List.not_mem_nil, false_implies, implies_true, and_true]
  exact ⟨⟨_, exec_out s r⟩, ⟨_, exec_ldm s r x⟩, ⟨_, exec_ldi s r x⟩, ⟨_, exec_stv s r x⟩,
    ⟨_, exec_pop s r⟩, ⟨_, exec_psh s r⟩, ⟨_, exec_adm s r x⟩⟩

section
variable {rs rd : Word} (s : State) (rest : RegIndex → RegIndex → Out)

theorem withTwoRegs_invalid_first (h : InvalidRegister rs) :
    withTwoRegs rs rd s rest = .next (raise (.invalidRegister rs) s) := by
  rw [withTwoRegs, if_pos h]

theorem withTwoRegs_invalid_second (hs : ¬ InvalidRegister rs) (h : InvalidRegister rd) :
    withTwoRegs rs rd s rest = .next (raise (.invalidRegister rd) s) := by
  rw [withTwoRegs, if_neg hs, if_pos h]

theorem withTwoRegs_eight_first (hd : ¬ InvalidRegister rd) :
    withTwoRegs 8#32 rd s rest = .next (raise (.registerOutOfRange 8#32) s) := by
  rw [withTwoRegs, if_neg eight_not_invalid, if_neg hd, withReg_eight]

theorem withTwoRegs_eight_second {a : RegIndex} (ha : Names rs a) :
    withTwoRegs rs 8#32 s rest = .next (raise (.registerOutOfRange 8#32) s) := by
  rw [withTwoRegs, if_neg (not_invalid_of_names ha), if_neg eight_not_invalid, withReg_names ha,
    withReg_eight]

end

/-- A value in `[0, 8]` passes the `InvalidRegister` check (rule R97). -/
theorem not_invalid_of_bounds {r : Word} (h : 0 ≤ r.toInt ∧ r.toInt ≤ 8) :
    ¬ InvalidRegister r := by
  simp only [InvalidRegister]
  omega

/-- Settles O26: each clause is the check of `withReg` or `withTwoRegs` that answers first. -/
theorem registerOperandsAreValidated : Obligations.RegisterOperandsAreValidated := by
  refine ⟨fun r x s i hi => ?_, fun rs rd s => ⟨fun h => ?_, fun hs hd => ?_, fun hs hd => ?_,
    fun hs hd => ?_⟩⟩
  · obtain ⟨rest, hx⟩ := exec_eq_withReg r x s i hi
    refine ⟨fun hbad => hx.trans (withReg_invalid hbad s rest), fun h8 => ?_⟩
    obtain rfl := eq_eight_of_toInt h8
    exact hx.trans (withReg_eight s rest)
  · exact withTwoRegs_invalid_first s _ h
  · exact withTwoRegs_invalid_second s _ (not_invalid_of_bounds hs) hd
  · obtain rfl := eq_eight_of_toInt hs
    exact withTwoRegs_eight_first s _ (not_invalid_of_bounds hd)
  · obtain rfl := eq_eight_of_toInt hd
    obtain ⟨a, ha⟩ := exists_names_of_namesRegister hs
    exact withTwoRegs_eight_second s _ ha

/-- Settles O27: past the register operand, the address is the next that is checked. -/
theorem addressesOutOfBoundsFault : Obligations.AddressesOutOfBoundsFault := by
  intro r addr k s hk hbad
  have hc := not_namesCell_iff.mpr hbad
  simp only [List.forall_mem_cons, List.not_mem_nil, false_implies, implies_true, and_true]
  refine ⟨?_, ?_, ?_⟩
  · rw [Raises, exec_ldm, withReg_names hk, withMemRead_error hc, raise]
  · rw [Raises, exec_stv, withReg_names hk, withMemWrite_error hc, raise]
  · rw [Raises, exec_adm, withReg_names hk, withMemRead_error hc, raise]

end Sys2Proof.Machine
end

section
/-! The stacks (`20_memory.md` section 5): the pointer ranges, and pushes and pops in a row. -/

namespace Sys2Proof.Machine

/-- Settles O32: the two pointer functions at their thresholds. -/
theorem stackPointerStaysInRange : Obligations.StackPointerStaysInRange := by
  intro v k hk
  simp only [push_sp, pop_sp, pushPointer, popPointer]
  refine ⟨fun hcap => ?_, fun hcap => ?_, ?_, fun htop => ?_⟩ <;> split at * <;> omega

/-- A pop retreats to where a push stood, unless the push wrapped. -/
theorem popPointer_pushPointer {cap sp : Nat} (h : sp < cap) (hsp : sp + 2 ≠ cap) :
    popPointer cap (pushPointer cap sp) = sp := by
  simp only [pushPointer, popPointer]
  split <;> split <;> omega

/-- A push at `cap - 2` wraps, and the pop after it stands at the last cell. -/
theorem popPointer_pushPointer_wrap {cap sp : Nat} (hsp : sp + 2 = cap) :
    popPointer cap (pushPointer cap sp) = cap - 1 := by
  rw [pushPointer, if_pos (by omega), popPointer, if_pos rfl]

/-- Settles O33: the pop reads where the pointer retreats to, which is the cell pushed unless the
push wrapped; there it is the last cell, which no push from that pointer writes. -/
theorem pushThenPopRestoresUnlessItWraps : Obligations.PushThenPopRestoresUnlessItWraps := by
  intro v k hk
  have hwrap : (k.sp : Int) = (k.cap : Int) - 2 ↔ k.sp + 2 = k.cap := by omega
  simp only [ne_eq, hwrap, pop_value, pop_sp, push_cap, push_sp, push_cells]
  refine ⟨⟨fun ⟨_, hsp⟩ h => ?_, fun h => ?_⟩, fun h => ?_⟩
  · rw [popPointer_pushPointer_wrap h] at hsp
    omega
  · rw [popPointer_pushPointer hk h]
    exact ⟨readCell_writeCell_same .., rfl⟩
  · rw [popPointer_pushPointer_wrap h]
    exact ⟨readCell_writeCell_other (by omega) .., rfl⟩

/-! ### Pushes from pointer 0 -/

/-- The last push of a list comes after all the others. -/
@[simp] theorem pushAll_append_singleton (vs : List Word) (v : Word) (k : Stack) :
    pushAll (vs ++ [v]) k = push v (pushAll vs k) := by
  induction vs generalizing k with
  | nil => rfl
  | cons x vs ih => exact ih (push x k)

@[simp] theorem pushAll_cap (vs : List Word) (k : Stack) : (pushAll vs k).cap = k.cap := by
  induction vs generalizing k with
  | nil => rfl
  | cons x vs ih => exact ih (push x k)

/-- The pointer goes round the cells below the last. -/
theorem pushPointer_mod {cap : Nat} (hcap : 2 ≤ cap) (m : Nat) :
    pushPointer cap (m % (cap - 1)) = (m + 1) % (cap - 1) := by
  have hlt : m % (cap - 1) < cap - 1 := Nat.mod_lt m (by omega)
  rw [← Nat.mod_add_mod m (cap - 1) 1, pushPointer]
  split
  next h => rw [show m % (cap - 1) + 1 = cap - 1 by omega, Nat.mod_self]
  next h => exact (Nat.mod_eq_of_lt (by omega)).symm

section
variable {k : Stack} (hk : k.sp = 0) (hcap : 2 ≤ k.cap)
include hk hcap

theorem pushAll_sp (vs : List Word) : (pushAll vs k).sp = vs.length % (k.cap - 1) := by
  induction vs using List.reverseRecOn with
  | nil => rw [pushAll, hk, List.length_nil, Nat.zero_mod]
  | append_singleton vs v ih =>
    rw [pushAll_append_singleton, push_sp, pushAll_cap, ih, pushPointer_mod hcap,
      List.length_append, List.length_singleton]

theorem pushAll_keeps_last_cell (vs : List Word) :
    readCell (k.cap - 1) (pushAll vs k).cells = readCell (k.cap - 1) k.cells := by
  induction vs using List.reverseRecOn with
  | nil => rfl
  | append_singleton vs v ih =>
    have hsp : (pushAll vs k).sp < k.cap - 1 := by
      rw [pushAll_sp hk hcap]
      exact Nat.mod_lt _ (by omega)
    rw [pushAll_append_singleton, push_cells, readCell_writeCell_other (by omega), ih]

/-- As long as no push wraps before the last, value `j` stands in cell `j`. -/
theorem readCell_pushAll (vs : List Word) (hlen : vs.length ≤ k.cap - 1) {j : Nat} {v : Word}
    (hj : vs[j]? = some v) : readCell j (pushAll vs k).cells = v := by
  induction vs using List.reverseRecOn generalizing j v with
  | nil => cases hj
  | append_singleton vs x ih =>
    rw [List.length_append, List.length_singleton] at hlen
    have hsp : (pushAll vs k).sp = vs.length := by
      rw [pushAll_sp hk hcap, Nat.mod_eq_of_lt (by omega)]
    rw [pushAll_append_singleton, push_cells, hsp]
    by_cases hlast : j = vs.length
    · subst hlast
      rw [readCell_writeCell_same]
      simpa using hj
    · rw [readCell_writeCell_other hlast]
      refine ih (by omega) ?_
      have hjlt := (List.getElem?_eq_some_iff.mp hj).1
      rw [List.length_append, List.length_singleton] at hjlt
      rwa [List.getElem?_append_left (by omega)] at hj

end

/-- Settles O34: the pointer counts modulo `cap - 1`, so no push stands at the last cell. -/
theorem consecutivePushesCycleBelowTheLastCell :
    Obligations.ConsecutivePushesCycleBelowTheLastCell := by
  intro k vs hk hcap
  have htwo : 2 ≤ k.cap := by omega
  exact ⟨pushAll_sp hk htwo vs, pushAll_keeps_last_cell hk htwo vs,
    fun hlen _ _ hj => readCell_pushAll hk htwo vs hlen hj⟩

/-- Values that stand in the cells below the pointer pop in reverse order. -/
theorem popMany_of_cells (vs : List Word) {k : Stack} (hsp : k.sp = vs.length)
    (hcells : ∀ j v, vs[j]? = some v → readCell j k.cells = v) :
    (popMany vs.length k).1 = vs.reverse ∧ (popMany vs.length k).2.sp = 0 := by
  induction vs using List.reverseRecOn generalizing k with
  | nil => exact ⟨rfl, hsp⟩
  | append_singleton vs v ih =>
    rw [List.length_append, List.length_singleton] at hsp ⊢
    have hpop : popPointer k.cap k.sp = vs.length := by
      rw [hsp, popPointer, if_neg (by omega), Nat.add_sub_cancel]
    have hbelow : ∀ j x, vs[j]? = some x → readCell j (pop k).2.cells = x := fun j x hj =>
      hcells j x ((List.getElem?_append_left (List.getElem?_eq_some_iff.mp hj).1).trans hj)
    obtain ⟨hvals, hend⟩ := ih (k := (pop k).2) hpop hbelow
    have htop : (pop k).1 = v := by
      rw [pop_value, hpop]
      exact hcells vs.length v (by simp)
    exact ⟨by rw [popMany, hvals, htop, List.reverse_append]; rfl, hend⟩

/-- Settles O35: after at most `cap - 2` pushes the pointer stands above the values. -/
theorem pushedValuesPopInReverse : Obligations.PushedValuesPopInReverse := by
  intro k vs hk hlen
  have htwo : 2 ≤ k.cap := by omega
  refine popMany_of_cells vs ?_ fun j v hj => readCell_pushAll hk htwo vs (by omega) hj
  rw [pushAll_sp hk htwo, Nat.mod_eq_of_lt (by omega)]

end Sys2Proof.Machine
end

section
/-! The alu (`45_arithmetic_adm.md`, integer laws). -/

namespace Sys2Proof.Machine

/-- The signed value of `wrap32`, by the formula of rule R10. -/
theorem toInt_wrap32 (v : Int) : (wrap32 v).toInt = (v + 2 ^ 31) % 2 ^ 32 - 2 ^ 31 := by
  rw [wrap32, BitVec.toInt_ofInt, Int.bmod_def]
  omega

/-- `wrap32` keeps every value in the range of `Int32`. -/
theorem toInt_wrap32_of_bounds {v : Int} (h : -2147483648 ≤ v ∧ v ≤ 2147483647) :
    (wrap32 v).toInt = v := by
  rw [toInt_wrap32]
  omega

/-- Settles O36: `wrap32` takes the low 32 bits. -/
theorem wrapIsTheSignedRemainder : Obligations.WrapIsTheSignedRemainder :=
  ⟨toInt_wrap32, fun _ => BitVec.ofInt_toInt⟩

/-- The range of `Int32` (rule R9). -/
theorem toInt_bounds (a : Word) : -2147483648 ≤ a.toInt ∧ a.toInt ≤ 2147483647 := by
  have hlow := BitVec.le_toInt a
  have hhigh := BitVec.toInt_lt (x := a)
  omega

theorem toInt_aluAdd (a b : Word) :
    (aluAdd a b).toInt = (a.toInt + b.toInt + 2 ^ 31) % 2 ^ 32 - 2 ^ 31 := toInt_wrap32 _

/-- `wrap32` of the exact negation is the negation of the bit pattern. -/
theorem wrap32_neg_toInt (a : Word) : wrap32 (-a.toInt) = -a := by
  rw [wrap32, BitVec.ofInt_neg, BitVec.ofInt_toInt]

/-- Settles O37: the laws are those of addition of the bit patterns. -/
theorem additionIsACommutativeGroup : Obligations.AdditionIsACommutativeGroup := by
  refine ⟨fun a b => ⟨rfl, toInt_aluAdd a b, ?_⟩, ?_, ?_, ?_, ?_, by decide⟩
  · rw [aluAdd_eq_add, BitVec.toNat_add]
  · intro a b
    simp only [aluAdd_eq_add, BitVec.add_comm]
  · intro a b c
    simp only [aluAdd_eq_add, BitVec.add_assoc]
  · intro a
    rw [aluAdd_eq_add, BitVec.add_zero]
  · intro a
    rw [wrap32_neg_toInt, aluAdd_eq_add, BitVec.add_right_neg]

/-- Settles O38: an overflow moves the exact sum by `2^32`, to the other sign. -/
theorem additionOverflowsBySign : Obligations.AdditionOverflowsBySign := by
  intro a b
  have ha := toInt_bounds a
  have hb := toInt_bounds b
  rw [toInt_aluAdd]
  refine ⟨?_, ?_, ?_, ?_⟩ <;> omega

/-- The exact quotient of two words is in range, but for the one corner (rule R128). -/
theorem tdiv_bounds {a b : Word} (hb : b.toInt ≠ 0)
    (hcorner : ¬ (a.toInt = -2147483648 ∧ b.toInt = -1)) :
    -2147483648 ≤ a.toInt.tdiv b.toInt ∧ a.toInt.tdiv b.toInt ≤ 2147483647 := by
  have ha := toInt_bounds a
  by_cases hone : b.toInt.natAbs = 1
  · rcases Int.natAbs_eq b.toInt with h | h <;> rw [hone] at h <;> rw [h]
    · simpa using ha
    · have hquot : a.toInt.tdiv (-1) = -a.toInt := by simp
      rw [Nat.cast_one, hquot]
      rw [h] at hcorner
      omega
  · have habs : (a.toInt.tdiv b.toInt).natAbs = a.toInt.natAbs / b.toInt.natAbs :=
      Int.natAbs_tdiv ..
    have hhalf : a.toInt.natAbs / b.toInt.natAbs ≤ a.toInt.natAbs / 2 :=
      Nat.div_le_div_left (by omega) (by omega)
    omega

/-- The truncated quotient times the divisor is the dividend up to less than the divisor, toward
zero. -/
theorem tdiv_truncates {x y : Int} (hy : y ≠ 0) :
    (x.tdiv y * y - x).natAbs < y.natAbs ∧ (x.tdiv y * y).natAbs ≤ x.natAbs ∧
      0 ≤ x.tdiv y * y * x := by
  have hdiv : x.tdiv y * y + x.tmod y = x := Int.tdiv_mul_add_tmod x y
  have hrem : (x.tmod y).natAbs = x.natAbs % y.natAbs := Int.natAbs_tmod ..
  have hlt : x.natAbs % y.natAbs < y.natAbs := Nat.mod_lt _ (by omega)
  have hle : x.natAbs % y.natAbs ≤ x.natAbs := Nat.mod_le ..
  generalize hq : x.tdiv y * y = q at *
  rcases le_total 0 x with hx | hx
  · have hr := Int.tmod_nonneg y hx
    exact ⟨by omega, by omega, mul_nonneg (by omega) hx⟩
  · have hr := Int.tmod_nonneg y (neg_nonneg.mpr hx)
    rw [Int.neg_tmod] at hr
    exact ⟨by omega, by omega, mul_nonneg_of_nonpos_of_nonpos (by omega) hx⟩

theorem alu_div_of_ne_zero (a : Word) {b : Word} (hb : b.toInt ≠ 0) :
    alu .div a b = some (wrap32 (a.toInt.tdiv b.toInt)) := if_neg hb

theorem alu_div_of_zero (a : Word) {b : Word} (hb : b.toInt = 0) : alu .div a b = none :=
  if_pos hb

/-- Settles O39: outside the corner the quotient is in range, so `wrap32` leaves it. -/
theorem unreachableOperatorsWrapAndTruncate : Obligations.UnreachableOperatorsWrapAndTruncate := by
  intro a b
  refine ⟨⟨_, rfl, toInt_wrap32 _⟩, ⟨_, rfl, toInt_wrap32 _⟩, ⟨fun h => ?_, alu_div_of_zero a⟩,
    fun hb => ⟨_, alu_div_of_ne_zero a hb, ?_, fun hcorner => ?_⟩⟩
  · by_contra hb
    cases (alu_div_of_ne_zero a hb).symm.trans h
  · rintro ⟨ha, hb⟩
    rw [ha, hb]
    decide
  · rw [toInt_wrap32_of_bounds (tdiv_bounds hb hcorner)]
    exact tdiv_truncates hb

end Sys2Proof.Machine
end

section
/-! The instructions, one by one (`41_system_out_hlt.md` to `45_arithmetic_adm.md`): each completes
with the effect of its arm, whose result and frame are those of the shared operations. -/

namespace Sys2Proof.Machine

theorem keepsMem_of_mem {s t : State} (h : t.mem = s.mem) : KeepsMem s t :=
  ⟨by rw [h], memCell_eq_of_mem h⟩

theorem keepsRegs_of_regs {s t : State} (h : t.regs = s.regs) : KeepsRegs s t :=
  readReg_eq_of_regs h

theorem keepsRegsBut_writeReg (k : RegIndex) (v : Word) (s : State) :
    KeepsRegsBut k s (writeReg k v s) := fun q hq => readReg_writeReg_other s k q v hq

/-- Settles O40: `emit` reaches the output only. -/
theorem outEmitsTheRegister : Obligations.OutEmitsTheRegister := by
  intro r k s hk
  exact ⟨_, exec_of_effect (.out hk), rfl, advances_of_effect (.out hk), keepsRegs_of_regs rfl,
    keepsMem_of_mem rfl, rfl⟩

/-- Settles O42: the source is read before the destination is written, so equal operands need no
case of their own. -/
theorem movCopiesTheSource : Obligations.MovCopiesTheSource := by
  intro rs rd a b s ha hb
  exact ⟨_, exec_of_effect (.mov ha hb), readReg_writeReg_same .., keepsRegsBut_writeReg b _ s,
    advances_of_effect (.mov ha hb), keepsMem_of_mem rfl, rfl, rfl⟩

/-- Settles O43: the literal is the value of one `writeReg`. -/
theorem ldiLoadsTheLiteral : Obligations.LdiLoadsTheLiteral := by
  intro r literal k s hk
  exact ⟨_, exec_of_effect (.ldi hk), readReg_writeReg_same .., keepsRegsBut_writeReg k _ s,
    advances_of_effect (.ldi hk), keepsMem_of_mem rfl, rfl, rfl⟩

/-- Settles O44: in bounds the load is one `writeReg` of the cell. -/
theorem ldmLoadsTheCell : Obligations.LdmLoadsTheCell := by
  intro r addr k s hk hlow hhigh
  have he := Effect.ldm hk ⟨hlow, hhigh⟩
  exact ⟨_, exec_of_effect he, readReg_writeReg_same .., keepsRegsBut_writeReg k _ s,
    advances_of_effect he, keepsMem_of_mem rfl, rfl, rfl⟩

/-- Settles O45: the flags are those of the result 0, not of the value stored. -/
theorem stvStoresTheRegister : Obligations.StvStoresTheRegister := by
  intro r addr k s hk hlow hhigh
  have he := Effect.stv hk ⟨hlow, hhigh⟩
  exact ⟨_, exec_of_effect he, memCell_storeCell_same .., keepsMemBut_storeCell ..,
    keepsRegs_of_regs rfl, advances_of_effect he, rfl, rfl, rfl, rfl⟩

/-- Settles O46: the pointer is that of `pop`, and the register takes what `pop` read. -/
theorem popLoadsTheStackCell : Obligations.PopLoadsTheStackCell := by
  intro r k s hk hcap
  have hsp := cast_popPointer hcap s.ds.sp
  have hzero : (s.ds.sp : Int) - 1 < 0 ↔ s.ds.sp = 0 := by omega
  simp only [hzero] at hsp
  exact ⟨_, exec_of_effect (.pop hk), hsp, readReg_writeReg_same .., rfl, rfl,
    keepsRegsBut_writeReg k _ (setDataStack _ s), advances_of_effect (.pop hk),
    keepsMem_of_mem rfl, rfl⟩

/-- Settles O47: the cells and the pointer are those of `push`. -/
theorem pshStoresOnTheStack : Obligations.PshStoresOnTheStack := by
  intro r k s hk
  obtain ⟨hcell, hothers, hcap, hsp⟩ := pushWritesThenAdvances (readReg k s) s.ds
  exact ⟨_, exec_of_effect (.psh hk), hcell, hothers, hsp, hcap, keepsRegs_of_regs rfl,
    advances_of_effect (.psh hk), keepsMem_of_mem rfl, rfl⟩

/-- Settles O48: the register takes `alu(ADD)` of itself and the cell. -/
theorem admAddsTheCell : Obligations.AdmAddsTheCell := by
  intro r addr k s hk hlow hhigh
  have he := Effect.adm hk ⟨hlow, hhigh⟩
  refine ⟨_, exec_of_effect he, ?_, keepsRegsBut_writeReg k _ s, ?_, keepsMem_of_mem rfl, rfl,
    rfl⟩ <;> rw [readReg_complete, readReg_writeReg_same]
  exacts [toInt_aluAdd _ _, advances_of_effect he]

/-! ### Two instructions in a row -/

/-- Settles O49: the load reads the cell that the store wrote. -/
theorem storeThenLoadReturnsTheValue : Obligations.StoreThenLoadReturnsTheValue := by
  intro r₁ r₂ addr a b s ha hb hlow hhigh
  refine ⟨_, _, exec_of_effect (.stv ha ⟨hlow, hhigh⟩), exec_of_effect (.ldm hb ⟨hlow, hhigh⟩), ?_⟩
  rw [readReg_complete, readReg_writeReg_same, memCell_complete, memCell_storeCell_same]

/-- Settles O50: the pop meets the stack that the push left, and restores it by the law of the
primitives. -/
theorem pushThenPopReturnsTheValue : Obligations.PushThenPopReturnsTheValue := by
  intro r₁ r₂ a b s ha hb hsp hwrap
  obtain ⟨hiff, -⟩ := pushThenPopRestoresUnlessItWraps (readReg a s) s.ds hsp
  obtain ⟨hvalue, hback⟩ := hiff.mpr hwrap
  refine ⟨_, _, exec_of_effect (.psh ha), exec_of_effect (.pop hb), ?_, hback⟩
  rw [readReg_complete, readReg_writeReg_same, complete_ds, setDataStack_ds, hvalue]

end Sys2Proof.Machine
end

section
/-! Runs (`40_engine_and_blocks.md` section 2, step 9): every run ends within its bound. -/

namespace Sys2Proof.Machine

/-- The loop stays in a state whose run is over. -/
theorem runLoop_of_ended {s : State} (h : s.status ≠ .running) (n : Nat) : runLoop n s = s :=
  runLoop_of_no_next (fun _ hs => h (running_of_step_next hs)) n

theorem runLoop_succ {s t : State} (h : step s = .next t) (n : Nat) :
    runLoop (n + 1) s = runLoop n t := by
  simp only [runLoop, h]

/-- A step keeps the parameters of the run, hence their bounds. -/
theorem step_keeps_configured {s t : State} (h : step s = .next t) : t.Configured := by
  obtain ⟨hc, -⟩ := step_cases h
  obtain ⟨hcs, hprog, hmem, hcap⟩ := callStackAndProgramAreInert s t h
  rwa [State.Configured, hcs, hprog, hmem, hcap]

/-- A step after which the run goes on has moved at least two elements on, inside the buffer: the
measure of every run. -/
theorem step_advances {s t : State} (h : step s = .next t) (hpc : s.pc ≤ s.prog.length)
    (ht : t.status = .running) :
    t.prog.length = s.prog.length ∧ s.pc + 2 ≤ t.pc ∧ t.pc ≤ s.prog.length := by
  rcases step_ends_or_completes h with ⟨x, hx, rfl⟩ | ⟨i, rest, w, v, u, hf, he, rfl⟩
  · exact absurd ht hx
  · obtain ⟨hpc', -, -, -, hprog⟩ := advances_of_effect he
    have hw : 2 ≤ w := by
      rcases effect_width_of_opcode he with ⟨-, rfl⟩ | ⟨-, rfl⟩ <;> omega
    have hend := fetch_width_le hpc hf
    rw [← effect_width he] at hend
    exact ⟨congrArg List.length hprog, by omega, by omega⟩

/-- Half the elements left, and one step more, end the run. -/
theorem runLoop_ends {n : Nat} {s : State} (hc : s.Configured) (hpc : s.pc ≤ s.prog.length)
    (hn : (s.prog.length - s.pc) / 2 + 1 ≤ n) : (runLoop n s).status ≠ .running := by
  induction n generalizing s with
  | zero => omega
  | succ n ih =>
    by_cases hr : s.status = .running
    · obtain ⟨t, hs⟩ := step_answers_next hc hr
      rw [runLoop_succ hs]
      by_cases ht : t.status = .running
      · obtain ⟨hprog, hlow, hhigh⟩ := step_advances hs hpc ht
        exact ih (step_keeps_configured hs) (by omega) (by omega)
      · rwa [runLoop_of_ended ht]
    · rwa [runLoop_of_ended hr]

/-- A run that is over has a report, which says how it ended (rule R104). -/
theorem runResult_of_ended {t : State} (h : t.status ≠ .running) :
    ∃ r, runResult t = some r ∧ ReportsTheEnd r t := by
  cases hs : t.status with
  | running => exact absurd hs h
  | halted x => exact ⟨.success, by simp [runResult, hs], by simp [ReportsTheEnd, hs]⟩
  | faulted k => exact ⟨.fault k, by simp [runResult, hs], by simp [ReportsTheEnd, hs]⟩

/-- The state a run ends in. -/
theorem run_final_ended {c : Config} {prog : List Word} (hc : c.Ok)
    (hlen : prog.length ≤ maxInt32) :
    (runLoop (stepBound prog.length) (State.construct c prog)).status ≠ .running :=
  runLoop_ends (construct_configured hc hlen) (Nat.zero_le _) le_rfl

/-- A run in bounds reports, with the state the loop leads to. -/
theorem run_reports {c : Config} {prog : List Word} (hc : c.Ok)
    (hlen : prog.length ≤ maxInt32) :
    ∃ r, run c prog = some (r, runLoop (stepBound prog.length) (State.construct c prog)) ∧
      ReportsTheEnd r (runLoop (stepBound prog.length) (State.construct c prog)) := by
  obtain ⟨r, hr, hend⟩ := runResult_of_ended (run_final_ended hc hlen)
  exact ⟨r, by simp only [run, hr, Option.map_some], hend⟩

/-- Settles O51: each step that goes on uses up two elements. -/
theorem everyRunEndsWithinItsBound : Obligations.EveryRunEndsWithinItsBound := by
  refine ⟨fun s hc hpc => runLoop_ends hc hpc le_rfl, fun c prog hc hlen => ?_⟩
  obtain ⟨r, hrun, hend⟩ := run_reports hc hlen
  exact ⟨r, _, hrun, run_final_ended hc hlen, hend, rfl⟩

end Sys2Proof.Machine
end

section
/-! The loader's duty (`70_reset_and_hazards.md` section 2): along the path executed it is met
exactly where the run ends in success. -/

namespace Sys2Proof.Machine

@[simp] theorem encodeProgram_nil : encodeProgram [] = [] := rfl

@[simp] theorem encodeProgram_cons (i : Instr) (is : List Instr) :
    encodeProgram (i :: is) = encode i ++ encodeProgram is := rfl

theorem namesRegister_of_names {r : Word} {k : RegIndex} (h : Names r k) : NamesRegister r := by
  have hk := k.isLt
  simp only [Names] at h
  simp only [NamesRegister]
  omega

/-- An instruction that completes met the loader's duty. -/
theorem loadable_of_effect {i : Instr} {s u : State} {w : Nat} {v : Word}
    (h : Effect i s w v u) : i.WellFormed ∧ i.AddressesIn s.mem.capacity := by
  rw [wellFormed_iff, addressesIn_iff]
  cases h with
  | out h | ldi h | pop h | psh h => simpa using namesRegister_of_names h
  | mov ha hb => simpa using ⟨namesRegister_of_names ha, namesRegister_of_names hb⟩
  | ldm h hc | stv h hc | adm h hc => simpa using ⟨namesRegister_of_names h, hc⟩

/-- An instruction that meets the loader's duty completes, but for `HLT`. -/
theorem exists_effect_of_loadable {i : Instr} {s : State} (hi : i ≠ .hlt)
    (h : i.WellFormed ∧ i.AddressesIn s.mem.capacity) : ∃ w v u, Effect i s w v u := by
  obtain ⟨hregs, haddr⟩ := h
  rw [wellFormed_iff] at hregs
  rw [addressesIn_iff] at haddr
  -- the register of an instruction with one register operand
  have reg : ∀ {r}, r ∈ i.registerOperands → ∃ k, Names r k :=
    fun hr => exists_names_of_namesRegister (hregs _ hr)
  cases i with
  | hlt => exact absurd rfl hi
  | out r => obtain ⟨k, hk⟩ := reg (r := r) (by simp); exact ⟨_, _, _, .out hk⟩
  | ldi r x => obtain ⟨k, hk⟩ := reg (r := r) (by simp); exact ⟨_, _, _, .ldi hk⟩
  | pop r => obtain ⟨k, hk⟩ := reg (r := r) (by simp); exact ⟨_, _, _, .pop hk⟩
  | psh r => obtain ⟨k, hk⟩ := reg (r := r) (by simp); exact ⟨_, _, _, .psh hk⟩
  | mov rs rd =>
    obtain ⟨a, ha⟩ := reg (r := rs) (by simp)
    obtain ⟨b, hb⟩ := reg (r := rd) (by simp)
    exact ⟨_, _, _, .mov ha hb⟩
  | ldm r x =>
    obtain ⟨k, hk⟩ := reg (r := r) (by simp)
    exact ⟨_, _, _, .ldm hk (haddr x (by simp))⟩
  | stv r x =>
    obtain ⟨k, hk⟩ := reg (r := r) (by simp)
    exact ⟨_, _, _, .stv hk (haddr x (by simp))⟩
  | adm r x =>
    obtain ⟨k, hk⟩ := reg (r := r) (by simp)
    exact ⟨_, _, _, .adm hk (haddr x (by simp))⟩

/-- Behind an instruction that is fetched and completes, the buffer goes on with what followed
it. -/
theorem drop_after_effect {i : Instr} {s u : State} {w : Nat} {v : Word} {rest : List Word}
    (hf : fetch s = .ok (i, rest)) (he : Effect i s w v u) :
    (complete w v u).prog.drop (complete w v u).pc = rest := by
  obtain ⟨hpc, -, -, -, hprog⟩ := advances_of_effect he
  rw [hpc, hprog, effect_width he, ← List.drop_drop, fetch_eq_ok_iff.mp hf, List.drop_left]

/-- The elements from the program counter on meet the loader's duty along the path executed. -/
def MeetsDutyFrom (s : State) (is : List Instr) (tail : List Word) : Prop :=
  MeetsLoadersDuty s.mem.capacity (s.prog.drop s.pc) is tail

/-- The halt a program of these instructions ends in. -/
def finalHalt (is : List Instr) : Halt := if .hlt ∈ is then .hlt else .endOfBuffer

theorem finalHalt_cons {i : Instr} (hi : i ≠ .hlt) (is : List Instr) :
    finalHalt (i :: is) = finalHalt is := by
  simp [finalHalt, hi.symm]

/-- The invariant of a run that meets the loader's duty: it has ended in the given halt, or it goes
on and what is left of the program meets the duty and ends so. -/
def OnCourse (h : Halt) (s : State) : Prop :=
  s.status = .halted h ∨
  s.Configured ∧ s.status = .running ∧ ∃ is tail, MeetsDutyFrom s is tail ∧ finalHalt is = h

/-- With no instruction left, the buffer is at its end. -/
theorem fetch_of_meetsDutyFrom_nil {s : State} {tail : List Word} (h : MeetsDutyFrom s [] tail) :
    fetch s = .error .endOfBuffer := by
  obtain ⟨hprog, -, htail⟩ := h
  obtain rfl : tail = [] := by simpa using htail
  rw [fetch, fetchElements, hprog, encodeProgram_nil, List.append_nil, decode_nil]

/-- The first instruction left is the next one fetched. -/
theorem fetch_of_meetsDutyFrom_cons {i : Instr} {is : List Instr} {tail : List Word} {s : State}
    (h : MeetsDutyFrom s (i :: is) tail) : fetch s = .ok (i, encodeProgram is ++ tail) := by
  obtain ⟨hprog, -⟩ := h
  rw [fetch_eq_ok_iff, hprog, encodeProgram_cons, List.append_assoc]

/-- The first instruction left is one that completes, but for `HLT`. -/
theorem exists_effect_of_meetsDutyFrom {i : Instr} {is : List Instr} {tail : List Word} {s : State}
    (hi : i ≠ .hlt) (h : MeetsDutyFrom s (i :: is) tail) : ∃ w v u, Effect i s w v u := by
  obtain ⟨-, hload, -⟩ := h
  exact exists_effect_of_loadable hi (hload i (List.mem_cons_self ..))

/-- What is left of the duty once the first instruction, no `HLT`, has completed. -/
theorem meetsDutyFrom_after_effect {i : Instr} {is : List Instr} {tail : List Word}
    {s u : State} {w : Nat} {v : Word} (hi : i ≠ .hlt) (h : MeetsDutyFrom s (i :: is) tail)
    (he : Effect i s w v u) : MeetsDutyFrom (complete w v u) is tail := by
  have hf := fetch_of_meetsDutyFrom_cons h
  obtain ⟨-, hload, htail⟩ := h
  obtain ⟨-, -, -, -, -, hmem, -⟩ := effect_keeps he
  refine ⟨drop_after_effect hf he, ?_, ?_⟩
  · rw [complete_mem, hmem]
    exact (List.forall_mem_cons.mp hload).2
  · simpa [hi.symm] using htail

theorem step_keeps_onCourse {h : Halt} {s t : State} (hs : OnCourse h s)
    (hstep : step s = .next t) : OnCourse h t := by
  have hr := running_of_step_next hstep
  obtain hend | ⟨hc, -, is, tail, hduty, rfl⟩ := hs
  · cases hr.symm.trans hend
  cases is with
  | nil =>
    have hf := fetch_of_meetsDutyFrom_nil hduty
    obtain rfl := Host.Outcome.next.inj ((step_of_fetch_error hc hr hf).symm.trans hstep)
    exact .inl rfl
  | cons i is =>
    have hf := fetch_of_meetsDutyFrom_cons hduty
    have hx := (step_of_fetch hc hr hf).symm.trans hstep
    by_cases hi : i = .hlt
    · subst hi
      obtain rfl := Host.Outcome.next.inj hx
      exact .inl (by simp [finalHalt])
    · obtain ⟨w, v, u, he⟩ := exists_effect_of_meetsDutyFrom hi hduty
      obtain rfl := Host.Outcome.next.inj ((exec_of_effect he).symm.trans hx)
      exact .inr ⟨step_keeps_configured hstep, complete_status_running he hstep, is, tail,
        meetsDutyFrom_after_effect hi hduty he, (finalHalt_cons hi is).symm⟩

/-- Settles O52: every step keeps the run on course, and the run ends. -/
theorem loadableProgramsRunToSuccess : Obligations.LoadableProgramsRunToSuccess := by
  intro c prog is tail hc hlen hduty
  have hstart : OnCourse (finalHalt is) (State.construct c prog) :=
    .inr ⟨construct_configured hc hlen, rfl, is, tail, hduty, rfl⟩
  obtain ⟨r, hrun, hreport, -⟩ := run_reports hc hlen
  obtain hend | ⟨-, hr, -⟩ := runLoop_keeps (fun _ _ => step_keeps_onCourse)
    (stepBound prog.length) hstart
  · obtain rfl := hreport.mpr ⟨_, hend⟩
    exact ⟨_, hrun, hend⟩
  · exact absurd hr (run_final_ended hc hlen)

/-- A loop that leads from a running machine to a halt has met the loader's duty on its way. -/
theorem meetsDutyFrom_of_halted {n : Nat} {s : State} {h : Halt} (hr : s.status = .running)
    (hend : (runLoop n s).status = .halted h) : ∃ is tail, MeetsDutyFrom s is tail := by
  induction n generalizing s with
  | zero => cases hr.symm.trans hend
  | succ n ih =>
    cases hs : step s with
    | fault _ | refused _ =>
      simp only [runLoop, hs] at hend
      cases hr.symm.trans hend
    | next t =>
      rw [runLoop_succ hs] at hend
      -- a step that ends the run has ended it in the halt
      have ended : t.status ≠ .running → t.status = .halted h := fun ht => by
        rwa [runLoop_of_ended ht] at hend
      obtain ⟨-, -, ⟨e, hf, rfl⟩ | ⟨i, rest, hf, hx⟩⟩ := step_cases hs
      · rcases decode_error_cases hf with ⟨rfl, hd⟩ | ⟨op, l, rfl, -⟩ | ⟨o, l, rfl, -⟩
        · exact ⟨[], [], hd, nofun, .inr rfl⟩
        · cases ended (by simp [fetchFailed])
        · cases ended (by simp [fetchFailed])
      rcases exec_cases hx with ⟨k, -, rfl⟩ | ⟨rfl, rfl⟩ | ⟨w, v, u, he, rfl⟩
      · cases ended (by simp)
      · exact ⟨[.hlt], rest, fetch_eq_ok_iff.mp hf, by simp [Loadable], .inl (by simp)⟩
      · obtain ⟨is, tail, hprog, hload, htail⟩ := ih (complete_status_running he hs) hend
        obtain ⟨-, -, -, -, -, hmem, -⟩ := effect_keeps he
        rw [complete_mem, hmem] at hload
        refine ⟨i :: is, tail, ?_, List.forall_mem_cons.mpr ⟨loadable_of_effect he, hload⟩,
          htail.imp_left (List.mem_cons_of_mem i)⟩
        rw [fetch_eq_ok_iff.mp hf, encodeProgram_cons, List.append_assoc, ← hprog,
          drop_after_effect hf he]

/-- A report of success is that of a halt. -/
theorem halted_of_runResult_success {t : State} (h : runResult t = some .success) :
    ∃ x, t.status = .halted x := by
  cases hs : t.status with
  | halted x => exact ⟨x, rfl⟩
  | running | faulted k => simp [runResult, hs] at h

/-- Settles O53: success is a halt, and the loop led there from the start of the program. -/
theorem successfulRunsMetTheLoadersDuty : Obligations.SuccessfulRunsMetTheLoadersDuty := by
  intro c prog t h
  obtain ⟨r, hr, hrt⟩ := Option.map_eq_some_iff.mp h
  obtain ⟨rfl, rfl⟩ := Prod.mk.inj hrt
  obtain ⟨x, hx⟩ := halted_of_runResult_success hr
  exact meetsDutyFrom_of_halted (s := State.construct c prog) rfl hx

end Sys2Proof.Machine
end
